-- ==== Sys2Proof/Word.lean ====
section
/-!
DEFINITION. The word types of the PEC/BFC unit: bytes of the accumulator and the frame buffer, the 16-bit result
value, the 32-bit command word.
-/

namespace Sys2Proof

/-- A byte: the accumulator (R20), a byte of the frame buffer (R40), an 8-bit immediate (R71). -/
abbrev Byte := BitVec 8

/-- A 16-bit quantity: a result value and the immediate of format W (R69, R71). -/
abbrev Half := BitVec 16

/-- A command word, bits 31 (most significant) to 0 (R60). -/
abbrev Word := BitVec 32

end Sys2Proof
end

