-- ==== Sys2Proof/Syntax.lean ====
section
/-!
DEFINITION. The fourteen operations of the unit at the operation level (R5, R70, R75): one constructor per row of the
opcode table, operands in the order of the assembler syntax of R75.

At this level an offset, a field width and a field shift are natural numbers (R48: "At the operation level, where
`off` is a natural number"; R130, D14); `Instr.wf` (WellFormed.lean) says which of them a command word can carry.
-/

namespace Sys2Proof

inductive Instr where
  /-- `CRC.INIT` (R97) -/
  | crcInit
  /-- `CRC.FEED b` (R98) -/
  | crcFeed (b : Byte)
  /-- `CRC.READ` (R99) -/
  | crcRead
  /-- `PEC.CHECK r` (R101) -/
  | pecCheck (r : Byte)
  /-- `CUR.GET off` (R148) -/
  | curGet (off : Nat)
  /-- `CUR.PUT off, mA` (R149) -/
  | curPut (off : Nat) (mA : Half)
  /-- `FB.CLR` (R140) -/
  | fbClr
  /-- `FB.WR off, b` (R141) -/
  | fbWr (off : Nat) (b : Byte)
  /-- `FB.RD off` (R142) -/
  | fbRd (off : Nat)
  /-- `BF.GET off, width, shift` (R143) -/
  | bfGet (off width shift : Nat)
  /-- `BF.PUT off, width, shift, value` (R144) -/
  | bfPut (off width shift : Nat) (value : Byte)
  /-- `BF.MARK off, apply` (R145); `apply` is the caller's "apply this field" flag -/
  | bfMark (off : Nat) (apply : Bool)
  /-- `LE16.GET off` (R146) -/
  | le16Get (off : Nat)
  /-- `LE16.PUT off, v` (R147) -/
  | le16Put (off : Nat) (v : Half)
  deriving DecidableEq, Repr

end Sys2Proof
end

