-- ==== Sys2Proof/WellFormed.lean ====
section
/-!
DEFINITION. Which operations a command word can carry (R71): `off` 0 to 63, `width` 0 to 15, `shift` 0 to 7. Operand
values that a word carries but the operation refuses (`BF.PUT` past bit 7, a 16-bit access at offset 63) are well
formed: they decode, and the operation's own rule raises InvalidParameter (R73).
-/

namespace Sys2Proof

/-- The offset fits the 6-bit field `off` (R61, R71). -/
def offsetFits (off : Nat) : Bool := decide (off ≤ 63)

/-- The width fits the 4-bit field `width` (R67, R71). -/
def widthFits (width : Nat) : Bool := decide (width ≤ 15)

/-- The shift fits the 3-bit field `shift` (R67, R71). -/
def shiftFits (shift : Nat) : Bool := decide (shift ≤ 7)

/-- The operation has a command word. -/
def Instr.wf : Instr → Bool
  | .crcInit => true
  | .crcFeed _ => true
  | .crcRead => true
  | .pecCheck _ => true
  | .curGet off => offsetFits off
  | .curPut off _ => offsetFits off
  | .fbClr => true
  | .fbWr off _ => offsetFits off
  | .fbRd off => offsetFits off
  | .bfGet off width shift => offsetFits off && widthFits width && shiftFits shift
  | .bfPut off width shift _ => offsetFits off && widthFits width && shiftFits shift
  | .bfMark off _ => offsetFits off
  | .le16Get off => offsetFits off
  | .le16Put off _ => offsetFits off

end Sys2Proof
end

