-- ==== Sys2Proof/Decode.lean ====
section
/-!
DEFINITION. The command word (R60 to R74): its fields, the decoder, the encoder, and the opcode map of R70 as a list
of match/mask rows.
-/

namespace Sys2Proof

/-! ### Fields of a command word (R61) -/

/-- `op`, bits 31:28. -/
def opField (w : Word) : BitVec 4 := w.extractLsb' 28 4

/-- `off`, bits 27:22. -/
def offField (w : Word) : BitVec 6 := w.extractLsb' 22 6

/-- `rsv`, bits 21:16: must be zero in every format. -/
def rsvField (w : Word) : BitVec 6 := w.extractLsb' 16 6

/-- `low`, bits 15:0. -/
def lowField (w : Word) : Half := w.extractLsb' 0 16

/-- `imm8`, `low[7:0]` (formats I, OI, F). -/
def imm8Field (w : Word) : Byte := w.extractLsb' 0 8

/-- `low[15:8]`, must be zero in formats I and OI. -/
def lowHighByte (w : Word) : Byte := w.extractLsb' 8 8

/-- `shift`, `low[14:12]` (format F). -/
def shiftField (w : Word) : BitVec 3 := w.extractLsb' 12 3

/-- `width`, `low[11:8]` (format F). -/
def widthField (w : Word) : BitVec 4 := w.extractLsb' 8 4

/-- `apply`, `low[0]` (format M). -/
def applyField (w : Word) : Bool := w.getLsbD 0

/-! ### The must-be-zero bits of each format (R63 to R69) -/

/-- Format N: `off`, `rsv` and `low` are zero (R63). -/
def formatN (w : Word) : Bool := offField w == 0 && rsvField w == 0 && lowField w == 0

/-- Format I: `off`, `rsv` and `low[15:8]` are zero (R64). -/
def formatI (w : Word) : Bool := offField w == 0 && rsvField w == 0 && lowHighByte w == 0

/-- Format O: `rsv` and `low` are zero (R65). -/
def formatO (w : Word) : Bool := rsvField w == 0 && lowField w == 0

/-- Format OI: `rsv` and `low[15:8]` are zero (R66). -/
def formatOI (w : Word) : Bool := rsvField w == 0 && lowHighByte w == 0

/-- Format F of `BF.PUT`: `rsv` and `low[15]` are zero (R67). -/
def formatF (w : Word) : Bool := rsvField w == 0 && !w.getLsbD 15

/-- Format F of `BF.GET`: `rsv`, `low[15]` and `imm8` are zero (R67). -/
def formatFGet (w : Word) : Bool := formatF w && imm8Field w == 0

/-- Format M: `rsv` and `low[15:1]` are zero (R68). -/
def formatM (w : Word) : Bool := rsvField w == 0 && w.extractLsb' 1 15 == 0

/-- Format W: `rsv` is zero (R69). -/
def formatW (w : Word) : Bool := rsvField w == 0

/-! ### The decoder -/

/-- Why a command word is reserved (R72). Either reason raises `InvalidParameter(word)` (`step`). -/
inductive DecodeError where
  /-- `op` is 0x0 or 0x7. -/
  | reservedOpcode
  /-- A must-be-zero bit of the word's format is 1. -/
  | mustBeZeroBitSet
  deriving DecidableEq, Repr

/-- The operation, if the must-be-zero bits of its format are zero. -/
def requireZeros (zeros : Bool) (i : Instr) : Except DecodeError Instr :=
  if zeros then .ok i else .error .mustBeZeroBitSet

/-- Decoding of a command word (R70, R72): total, reserved words rejected by name. -/
def decode (w : Word) : Except DecodeError Instr :=
  let off := (offField w).toNat
  match (opField w).toNat with
  | 0x1 => requireZeros (formatN w) .crcInit
  | 0x2 => requireZeros (formatI w) (.crcFeed (imm8Field w))
  | 0x3 => requireZeros (formatN w) .crcRead
  | 0x4 => requireZeros (formatI w) (.pecCheck (imm8Field w))
  | 0x5 => requireZeros (formatO w) (.curGet off)
  | 0x6 => requireZeros (formatW w) (.curPut off (lowField w))
  | 0x8 => requireZeros (formatN w) .fbClr
  | 0x9 => requireZeros (formatOI w) (.fbWr off (imm8Field w))
  | 0xA => requireZeros (formatO w) (.fbRd off)
  | 0xB => requireZeros (formatFGet w) (.bfGet off (widthField w).toNat (shiftField w).toNat)
  | 0xC => requireZeros (formatF w) (.bfPut off (widthField w).toNat (shiftField w).toNat (imm8Field w))
  | 0xD => requireZeros (formatM w) (.bfMark off (applyField w))
  | 0xE => requireZeros (formatO w) (.le16Get off)
  | 0xF => requireZeros (formatW w) (.le16Put off (lowField w))
  | _ => .error .reservedOpcode

/-! ### The encoder -/

/-- A command word from its fields, `rsv` zero (R61). -/
def commandWord (op : BitVec 4) (off : BitVec 6) (low : Half) : Word :=
  (op.setWidth 32 <<< 28) ||| (off.setWidth 32 <<< 22) ||| low.setWidth 32

/-- `low` of formats I and OI (R64, R66). -/
def lowImm8 (b : Byte) : Half := b.setWidth 16

/-- `low` of format F (R67). -/
def lowF (width shift : Nat) (imm8 : Byte) : Half :=
  ((BitVec.ofNat 3 shift).setWidth 16 <<< 12) ||| ((BitVec.ofNat 4 width).setWidth 16 <<< 8) ||| imm8.setWidth 16

/-- `low` of format M (R68). -/
def lowM (apply : Bool) : Half := (BitVec.ofBool apply).setWidth 16

/-- The command word of a well-formed operation (R63 to R70). An operand too wide for its field is cut to the field:
`Instr.wf` says when none is. -/
def encode : Instr → Word
  | .crcInit => commandWord 0x1 0 0
  | .crcFeed b => commandWord 0x2 0 (lowImm8 b)
  | .crcRead => commandWord 0x3 0 0
  | .pecCheck r => commandWord 0x4 0 (lowImm8 r)
  | .curGet off => commandWord 0x5 (BitVec.ofNat 6 off) 0
  | .curPut off mA => commandWord 0x6 (BitVec.ofNat 6 off) mA
  | .fbClr => commandWord 0x8 0 0
  | .fbWr off b => commandWord 0x9 (BitVec.ofNat 6 off) (lowImm8 b)
  | .fbRd off => commandWord 0xA (BitVec.ofNat 6 off) 0
  | .bfGet off width shift => commandWord 0xB (BitVec.ofNat 6 off) (lowF width shift 0)
  | .bfPut off width shift value => commandWord 0xC (BitVec.ofNat 6 off) (lowF width shift value)
  | .bfMark off apply => commandWord 0xD (BitVec.ofNat 6 off) (lowM apply)
  | .le16Get off => commandWord 0xE (BitVec.ofNat 6 off) 0
  | .le16Put off v => commandWord 0xF (BitVec.ofNat 6 off) v

/-! ### The opcode map (R70) -/

/-- A row of the opcode map: a word `w` is the row's operation when `w and mask = pattern`. -/
structure OpcodeRow where
  mnemonic : String
  pattern : Word
  mask : Word
  deriving DecidableEq, Repr

/-- "a word `w` is the operation of a row when `w and mask = match`" (R70). -/
def OpcodeRow.matchesWord (r : OpcodeRow) (w : Word) : Bool := w &&& r.mask == r.pattern

/-- The opcode map of R70, row by row. -/
def opcodeRows : List OpcodeRow :=
  [ ⟨"CRC.INIT", 0x10000000, 0xFFFFFFFF⟩,
    ⟨"CRC.FEED", 0x20000000, 0xFFFFFF00⟩,
    ⟨"CRC.READ", 0x30000000, 0xFFFFFFFF⟩,
    ⟨"PEC.CHECK", 0x40000000, 0xFFFFFF00⟩,
    ⟨"CUR.GET", 0x50000000, 0xF03FFFFF⟩,
    ⟨"CUR.PUT", 0x60000000, 0xF03F0000⟩,
    ⟨"FB.CLR", 0x80000000, 0xFFFFFFFF⟩,
    ⟨"FB.WR", 0x90000000, 0xF03FFF00⟩,
    ⟨"FB.RD", 0xA0000000, 0xF03FFFFF⟩,
    ⟨"BF.GET", 0xB0000000, 0xF03F80FF⟩,
    ⟨"BF.PUT", 0xC0000000, 0xF03F8000⟩,
    ⟨"BF.MARK", 0xD0000000, 0xF03FFFFE⟩,
    ⟨"LE16.GET", 0xE0000000, 0xF03FFFFF⟩,
    ⟨"LE16.PUT", 0xF0000000, 0xF03F0000⟩ ]

/-- The mnemonic of an operation (R70, R75). -/
def Instr.mnemonic : Instr → String
  | .crcInit => "CRC.INIT"
  | .crcFeed _ => "CRC.FEED"
  | .crcRead => "CRC.READ"
  | .pecCheck _ => "PEC.CHECK"
  | .curGet _ => "CUR.GET"
  | .curPut _ _ => "CUR.PUT"
  | .fbClr => "FB.CLR"
  | .fbWr _ _ => "FB.WR"
  | .fbRd _ => "FB.RD"
  | .bfGet _ _ _ => "BF.GET"
  | .bfPut _ _ _ _ => "BF.PUT"
  | .bfMark _ _ => "BF.MARK"
  | .le16Get _ => "LE16.GET"
  | .le16Put _ _ => "LE16.PUT"

/-! ### Table words -/

/-- The command word whose low `nbits` bits are those of `w` and whose other bits are 0 (bit numbers of R60). -/
def tableWord (nbits w : Nat) : Word := BitVec.ofNat 32 (w % 2 ^ nbits)

/-- The operation the decoder reads from the command word `tableWord nbits w`; none where the word is reserved. -/
def decodeTableWord (nbits w : Nat) : Option Instr :=
  match decode (tableWord nbits w) with
  | .ok i => some i
  | .error _ => none

end Sys2Proof
end

