-- ==== Sys2Proof/Config.lean ====
section
/-!
DEFINITION. The implementation parameters of rule R7 that are plain numbers. The table `T` is
`Sys2Proof.Machine.crcTable` (Machine/Ops.lean). The two OPEN parameters are arguments of the definitions that use
them: `ERRNO` in Machine/Outcome.lean, `LAYOUT` in Machine/Settings.lean.
-/

namespace Sys2Proof.Config

/-- `POLY` (R7, R90): used by `step1` of R91; the table and the update of R92 do not read it. -/
def poly : Byte := 0x07

/-- `SEED` (R7, R93): "Seed 0." -/
def seed : Byte := 0x00

/-- `FRAME_LEN` (R7, R23): the frame buffer has 64 bytes, offsets 0 to 63. -/
abbrev frameLen : Nat := 64

/-- `MARKER` (R7, R132): bit 7 of a field-group byte, "load new value". -/
def marker : Byte := 0x80

/-- `MAX_LEN` (R7, R106): the longest transfer without PEC; no operation of the unit reads it. -/
abbrev maxLen : Nat := 65535

/-- `MAX_LEN_PEC` (R7, R106): the longest transfer with PEC, one byte of `maxLen` being the PEC. -/
abbrev maxLenPec : Nat := 65534

/-- `ADDR_BITS` (R7, R100): a target address has 7 bits. -/
abbrev addrBits : Nat := 7

end Sys2Proof.Config
end

