-- ==== Sys2Proof/Machine/Flags.lean ====
section
/-!
DEFINITION. The flags the spec knows. The unit has no condition flag (R28: "No operation leaves a flag behind"); the
one flag is the marker bit of a field-group byte and the caller's "apply this field" flag that sets it (R132).
-/

namespace Sys2Proof.Machine

/-- The marker, bit 7, is set (R132, R145). -/
def markerSet (v : Byte) : Bool := v.getLsbD 7

/-- `encGroup(apply, v) = (0x80 or v) if apply else 0x00`: with `apply` false the whole byte is 0x00
(R132, 90_conflicts.md C2). -/
def encGroup (apply : Bool) (v : Byte) : Byte :=
  if apply then Config.marker ||| v else 0x00

end Sys2Proof.Machine
end

