-- ==== Sys2Proof/Machine/Operands.lean ====
section
/-!
DEFINITION. The pure functions of the bit-field codec (R130, R131, R133 to R136) and the address bytes (R100).
-/

namespace Sys2Proof.Machine

/-- `getBits(byte, width, shift) = (byte >> shift) & ((1<<width) - 1)`, on natural numbers and total (R130, D14). -/
def getBits (byte : Byte) (width shift : Nat) : Nat :=
  (byte.toNat >>> shift) &&& ((1 <<< width) - 1)

/-- `putBits(acc, value, width, shift) = acc or trunc_8(value << shift)` (R131), defined for `width + shift <= 8` and
`value < 2^width`: `BF.PUT` refuses every other operand before it gets here (R144). Inside that domain the result
does not depend on `width`. -/
def putBits (acc value : Byte) (_width shift : Nat) : Byte :=
  acc ||| (value <<< shift)

/-- `le16dec(lo, hi) = lo or (hi << 8)`, `lo` the byte at the lower offset (R133). -/
def le16dec (lo hi : Byte) : Half :=
  lo.setWidth 16 ||| (hi.setWidth 16 <<< 8)

/-- `le16enc(v) = [v[7:0], v[15:8]]`, low byte first (R134). -/
def le16enc (v : Half) : List Byte :=
  [v.extractLsb' 0 8, v.extractLsb' 8 8]

/-- `curDec(raw) = raw * 2` mA, computed in 16 bits: it does not wrap (R135, D18). -/
def curDec (raw : Byte) : Half :=
  raw.setWidth 16 * 2

/-- `curEnc(mA) = mA / 2`, defined for even `mA` up to 510: `CUR.PUT` refuses every other value before it gets here
(R136, R149, D18). -/
def curEnc (mA : Half) : Byte :=
  (mA >>> 1).setWidth 8

/-- `ADDRW(a7) = trunc_8(a7 << 1)`: the address in bits 7:1, direction bit 0 (R100, D13; the spec takes it from
general knowledge, log entry 9). -/
def addrW (a7 : Nat) : Byte :=
  BitVec.ofNat 8 a7 <<< 1

/-- `ADDRR(a7) = trunc_8(a7 << 1) or 0x01`: direction bit 1 (R100, D13, log entry 9). -/
def addrR (a7 : Nat) : Byte :=
  (BitVec.ofNat 8 a7 <<< 1) ||| 0x01

end Sys2Proof.Machine
end

