-- ==== Sys2Proof/Machine/Outcome.lean ====
section
/-!
DEFINITION. The outcome of an operation (R6): `ok(value)` or `err(name, info)`, the error names of R180, the
information each error records, and the OPEN parameter `ERRNO` (R181).
-/

namespace Sys2Proof.Machine

/-- The nine error names of the document (R180). Only `pecMismatch` and `invalidParameter` come from operations of
the unit, `unexpectedResponseShape` also from a pseudo-operation; the other six belong to the transport and the
engine driver (R188). -/
inductive ErrorName where
  | communicationFailure
  | invalidParameter
  | speedConfigurationFailure
  | busTimeout
  | addressNack
  | dataNack
  | retryBudgetExhausted
  | unexpectedResponseShape
  | pecMismatch
  deriving DecidableEq, Repr

/-- The information an error records (R180, last column): "the offending value (the word, the offset, the width and
shift, the value, the length, the address)", the two bytes of a mismatch, the received length. -/
inductive ErrInfo where
  /-- `PecMismatch(computed, received)` (R101) -/
  | pec (computed received : Byte)
  /-- A reserved command word (R72) -/
  | word (w : Word)
  /-- An offset (R48, R145) -/
  | offset (off : Nat)
  /-- A field's width and shift (R144) -/
  | field (width shift : Nat)
  /-- An operand value (R144, R149, R151, R153) -/
  | value (v : Nat)
  /-- A data length (R102, R103, R106) -/
  | length (n : Nat)
  /-- A target address (R100) -/
  | address (a7 : Nat)
  /-- A number of received bytes (R103, R183) -/
  | received (m : Nat)
  deriving DecidableEq, Repr

/-- An error: its name and its information. -/
structure OpError where
  name : ErrorName
  info : ErrInfo
  deriving DecidableEq, Repr

/-- The outcome of one operation (R6, R71): a 16-bit value, or an error. -/
inductive OpOutcome where
  | ok (v : Half)
  | err (e : OpError)
  deriving DecidableEq, Repr

/-- The outcome is an error. -/
def OpOutcome.isErr : OpOutcome → Bool
  | .ok _ => false
  | .err _ => true

/-- What the document fixes of the OPEN parameter `ERRNO` (R181, D21): every number is negative, and the nine numbers
are distinct. -/
def ErrnoAllowed (errno : ErrorName → Int) : Prop :=
  (∀ n, errno n < 0) ∧ Function.Injective errno

/-- "Exit codes map 1:1 to the error taxonomy plus 0 for success" (R181). -/
def OpOutcome.exitCode (errno : ErrorName → Int) : OpOutcome → Int
  | .ok _ => 0
  | .err e => errno e.name

end Sys2Proof.Machine
end

