-- ==== Sys2Proof/Machine/State.lean ====
section
/-!
DEFINITION. The state of the machine: the unit (`crc`, `fb`) and the two ends of its command port as the host sees
them (`pending`, `outcomes`), the reasons a step can stop, and the state after reset.
-/

namespace Sys2Proof.Machine

/-- The frame buffer `FB` (R23, R32), as the list of its bytes that differ from `Memory.unlisted`, by rising
offset (`Memory.wf`, Machine/Ops.lean). -/
abbrev Memory := List Host.Cell

/-- What the host can present at the unit's command port, one at a time (R4, R60, R210). -/
inductive Input where
  /-- An operation carried by a command word (R60). -/
  | command (w : Word)
  /-- An operation at the operation level, where operands are not bounded by the word's fields (R5, R48). -/
  | operation (i : Instr)
  /-- The reset event (R210): "It is not an operation and has no command word; it is an input of the unit". -/
  | reset
  deriving DecidableEq, Repr

/-- The whole state. `crc` and `fb` are the unit's 520 bits (10_state.md section 1); `pending` and `outcomes` belong
to the host (R27, R31, R222) and stand here because a step takes its operation from the one and reports to the
other. -/
structure State where
  /-- The accumulator `c` (R20). -/
  crc : Byte
  /-- The frame buffer (R23). -/
  fb : Memory
  /-- The inputs the host has still to issue, in issue order (R27, R222). -/
  pending : List Input
  /-- The outcomes the host has received, in issue order (R222). -/
  outcomes : List OpOutcome
  deriving DecidableEq, Repr

/-- Reasons for a step to stop with a fault: NONE. "No situation is treated as `stuck`: every operation on every state
ends with an outcome" (93_implementation_defined.md part 1b); an error is an outcome and the unit goes on (R187). -/
inductive Fault where
  deriving DecidableEq, Repr

/-- Reasons for a step to be refused. -/
inductive Refusal where
  /-- Raised by no meaning and by no arm of `exec` (every operation is modelled); the host's interface asks for the
  name. Safe. -/
  | notModelled (mnemonic : String)
  /-- Raised by `step` when the host has nothing to issue: "it has no step that is not the execution of a host-issued
  operation" (R4). Safe. -/
  | noOperation
  deriving DecidableEq, Repr

/-- The machine right after reset (R25): `crc = 0x00`, every byte of `FB` 0x00 (nothing listed). The host has issued
nothing and received nothing (log entry 2). -/
def State.reset : State :=
  { crc := 0x00, fb := [], pending := [], outcomes := [] }

end Sys2Proof.Machine
end

