-- ==== Sys2Proof/Machine/Ops.lean ====
section
/-!
DEFINITION. The shared operations: the frame buffer's bytes (R40 to R42), the CRC table and update (R22, R91 to R93),
the fields of the state, ending an operation with an outcome (R6, R186), the offset check (R48), taking the next
input, and the reset event (R210).
-/

namespace Sys2Proof.Machine

/-! ### The frame buffer -/

/-- What an offset that is not listed reads as: the reset content 0x00 (R25). -/
def Memory.unlisted : Byte := 0x00

/-- `FB[off]` (R9, R41). Defined for `off <= 63`: `checkOffset` stands before every use. -/
def Memory.read : Memory → Nat → Byte
  | [], _ => Memory.unlisted
  | (a, b) :: rest, off => if a = off then b else Memory.read rest off

/-- The list without the cells at `off`. -/
def Memory.erase : Memory → Nat → Memory
  | [], _ => []
  | (a, b) :: rest, off => if a = off then Memory.erase rest off else (a, b) :: Memory.erase rest off

/-- The list with one more cell, before the first cell of a higher offset. -/
def Memory.insert : Memory → Nat → Byte → Memory
  | [], off, b => [(off, b)]
  | (a, c) :: rest, off, b => if off < a then (off, b) :: (a, c) :: rest else (a, c) :: Memory.insert rest off b

/-- `FB[off] <- b` (R9, R42), keeping the canonical form: a byte that reads as unlisted is not listed. Defined for
`off <= 63`: `checkOffset` stands before every use. -/
def Memory.write (m : Memory) (off : Nat) (b : Byte) : Memory :=
  if b = Memory.unlisted then m.erase off else Memory.insert (m.erase off) off b

/-- `MemRead(off, n)`: the `n` bytes from `off` on, lowest offset first (R41). -/
def Memory.readSeq (m : Memory) (off : Nat) : Nat → List Byte
  | 0 => []
  | n + 1 => m.read off :: Memory.readSeq m (off + 1) n

/-- `MemWrite(off, n, s)`, `n` the length of `s`: the bytes of `s` to `off` on, lowest offset first (R42). -/
def Memory.writeSeq (m : Memory) (off : Nat) : List Byte → Memory
  | [] => m
  | b :: bs => Memory.writeSeq (m.write off b) (off + 1) bs

/-- All bytes 0x00 (R25, R140). -/
def Memory.zeros : Memory := []

/-- Offsets strictly rising from `lo`, all below 64, no cell equal to what it would read as unlisted. -/
def Memory.canonicalFrom (lo : Nat) : Memory → Bool
  | [] => true
  | (a, b) :: rest =>
    decide (lo ≤ a) && decide (a < Config.frameLen) && !decide (b = Memory.unlisted) && canonicalFrom (a + 1) rest

/-- The canonical form: two canonical frame buffers with the same bytes are the same list. -/
def Memory.wf (m : Memory) : Bool := Memory.canonicalFrom 0 m

/-! ### The CRC -/

/-- The table `T`, index 0 to 15 (R22): a constant, not state (D29). -/
def crcTableEntries : List Byte :=
  [0x00, 0x07, 0x0E, 0x09, 0x1C, 0x1B, 0x12, 0x15, 0x38, 0x3F, 0x36, 0x31, 0x24, 0x23, 0x2A, 0x2D]

/-- `T[i]` (R9, R22). -/
def crcTable (i : BitVec 4) : Byte := crcTableEntries.getD i.toNat 0x00

/-- `step1(v)`: shift left by one; if the bit shifted out was 1, xor 0x07 (R91). -/
def step1 (v : Byte) : Byte :=
  (v <<< 1) ^^^ (if v.getLsbD 7 then Config.poly else 0x00)

/-- `upd(c, b)`: one byte through the table, high nibble first (R92). -/
def upd (c b : Byte) : Byte :=
  let i1 : BitVec 4 := ((c ^^^ b) >>> 4).setWidth 4
  let c1 : Byte := (c <<< 4) ^^^ crcTable i1
  let i2 : BitVec 4 := ((c1 >>> 4) ^^^ b).setWidth 4
  (c1 <<< 4) ^^^ crcTable i2

/-- `crc8(s)`: the bytes of `s` fed in order from the seed (R93). -/
def crc8 (s : List Byte) : Byte := s.foldl upd Config.seed

/-! ### The fields of the state -/

/-- `crc <- v` (R9). -/
def State.setCrc (s : State) (v : Byte) : State := { s with crc := v }

/-- The state with another frame buffer. -/
def State.setFb (s : State) (m : Memory) : State := { s with fb := m }

/-- The state with another list of inputs. -/
def State.setPending (s : State) (l : List Input) : State := { s with pending := l }

/-- The state with one more outcome, the newest last (R222). -/
def State.addOutcome (s : State) (o : OpOutcome) : State := { s with outcomes := s.outcomes ++ [o] }

/-- The newest outcome, `ok(0)` where there is none yet. -/
def State.lastOutcome (s : State) : OpOutcome := s.outcomes.getLastD (.ok 0)

/-! ### Ending an operation -/

/-- The operation ends and the host receives `o`. -/
def respond (o : OpOutcome) (s : State) : Host.Outcome State Fault Refusal := .next (s.addOutcome o)

/-- `return ok(v)` (R9). -/
def returnOk (v : Half) (s : State) : Host.Outcome State Fault Refusal := respond (.ok v) s

/-- `raise <name>(info)` (R9, R186), `s` being the state as it was before the operation: "Nothing is saved anywhere, no
mode changes, no mask changes, control goes nowhere"; there is no return operation, since nothing was saved (R187). -/
def raise (name : ErrorName) (info : ErrInfo) (s : State) : Host.Outcome State Fault Refusal :=
  respond (.err ⟨name, info⟩) s

/-- `zext_16` of a byte (R8, R71). -/
def zext16 (b : Byte) : Half := b.setWidth 16

/-- An access of `n` bytes at `off` (R48): `InvalidParameter(off)` unless `off + n <= 64`, else `body`. -/
def checkOffset (off n : Nat) (s : State) (body : Host.Outcome State Fault Refusal) :
    Host.Outcome State Fault Refusal :=
  if off + n ≤ Config.frameLen then body else raise .invalidParameter (.offset off) s

/-! ### The command port -/

/-- The next input and the state in which it is executed, the host's list moved on (R27: "in the order the host issues
them"). -/
def nextInput (s : State) : Option (Input × State) :=
  match s.pending with
  | [] => none
  | i :: rest => some (i, s.setPending rest)

/-- The host issues `i` before what it had still to issue. -/
def issueNext (i : Input) (s : State) : State := s.setPending (i :: s.pending)

/-- A reserved command word: `InvalidParameter(word)`, no state change (R72). -/
def raiseReserved (w : Word) (s : State) : Host.Outcome State Fault Refusal :=
  raise .invalidParameter (.word w) s

/-- The reset event (R210, R25). It is not an operation: it has no outcome, and what the host holds stays
(log entry 4). -/
def resetUnit (s : State) : Host.Outcome State Fault Refusal :=
  .next ((s.setCrc 0x00).setFb Memory.zeros)

end Sys2Proof.Machine
end

