-- ==== Sys2Proof/Machine/Codec.lean ====
section
/-!
DEFINITION. The operations of the bit-field codec and the frame buffer (41_bitfield_codec.md section 3). Every check
stands before the first write (R186), in the order of R185.
-/

namespace Sys2Proof.Machine

/-- `CUR.GET off` (R148). -/
def execCurGet (off : Nat) (s : State) : Host.Outcome State Fault Refusal :=
  checkOffset off 1 s (returnOk (curDec (s.fb.read off)) s)

/-- `CUR.PUT off, mA` (R149): above 510 is tested before odd. -/
def execCurPut (off : Nat) (mA : Half) (s : State) : Host.Outcome State Fault Refusal :=
  checkOffset off 1 s
    (if mA.toNat > 510 then raise .invalidParameter (.value mA.toNat) s
     else if mA.getLsbD 0 then raise .invalidParameter (.value mA.toNat) s
     else returnOk 0 (s.setFb (s.fb.write off (curEnc mA))))

/-- `FB.CLR` (R140). -/
def execFbClr (s : State) : Host.Outcome State Fault Refusal :=
  returnOk 0 (s.setFb Memory.zeros)

/-- `FB.WR off, b` (R141): replaces, does not OR. -/
def execFbWr (off : Nat) (b : Byte) (s : State) : Host.Outcome State Fault Refusal :=
  checkOffset off 1 s (returnOk 0 (s.setFb (s.fb.write off b)))

/-- `FB.RD off` (R142). -/
def execFbRd (off : Nat) (s : State) : Host.Outcome State Fault Refusal :=
  checkOffset off 1 s (returnOk (zext16 (s.fb.read off)) s)

/-- `BF.GET off, width, shift` (R143): no error for any width and shift. -/
def execBfGet (off width shift : Nat) (s : State) : Host.Outcome State Fault Refusal :=
  checkOffset off 1 s (returnOk (BitVec.ofNat 16 (getBits (s.fb.read off) width shift)) s)

/-- `BF.PUT off, width, shift, value` (R144): it ORs into the byte. -/
def execBfPut (off width shift : Nat) (value : Byte) (s : State) : Host.Outcome State Fault Refusal :=
  checkOffset off 1 s
    (if width + shift > 8 then raise .invalidParameter (.field width shift) s
     else if value.toNat ≥ 2 ^ width then raise .invalidParameter (.value value.toNat) s
     else returnOk 0 (s.setFb (s.fb.write off (putBits (s.fb.read off) value width shift))))

/-- `BF.MARK off, apply` (R145): marks the byte, refusing a marker that is already set, or blanks it. -/
def execBfMark (off : Nat) (apply : Bool) (s : State) : Host.Outcome State Fault Refusal :=
  checkOffset off 1 s
    (if apply && markerSet (s.fb.read off) then raise .invalidParameter (.offset off) s
     else returnOk 0 (s.setFb (s.fb.write off (encGroup apply (s.fb.read off)))))

/-- `LE16.GET off` (R146): `[lo, hi] = MemRead(off, 2)`. -/
def execLe16Get (off : Nat) (s : State) : Host.Outcome State Fault Refusal :=
  checkOffset off 2 s (returnOk (le16dec (s.fb.read off) (s.fb.read (off + 1))) s)

/-- `LE16.PUT off, v` (R147): `MemWrite(off, 2, le16enc(v))`. -/
def execLe16Put (off : Nat) (v : Half) (s : State) : Host.Outcome State Fault Refusal :=
  checkOffset off 2 s (returnOk 0 (s.setFb (s.fb.writeSeq off (le16enc v))))

end Sys2Proof.Machine
end

