-- ==== Sys2Proof/Machine/CrcPec.lean ====
section
/-!
DEFINITION. The operations of the CRC-8/PEC engine (40_crc_pec.md section 2).
-/

namespace Sys2Proof.Machine

/-- `CRC.INIT` (R97). -/
def execCrcInit (s : State) : Host.Outcome State Fault Refusal :=
  returnOk 0 (s.setCrc Config.seed)

/-- `CRC.FEED b` (R98). -/
def execCrcFeed (b : Byte) (s : State) : Host.Outcome State Fault Refusal :=
  returnOk 0 (s.setCrc (upd s.crc b))

/-- `CRC.READ` (R99). -/
def execCrcRead (s : State) : Host.Outcome State Fault Refusal :=
  returnOk (zext16 s.crc) s

/-- `PEC.CHECK r` (R101): `r` is compared, not fed. -/
def execPecCheck (r : Byte) (s : State) : Host.Outcome State Fault Refusal :=
  if s.crc = r then returnOk (zext16 s.crc) s else raise .pecMismatch (.pec s.crc r) s

end Sys2Proof.Machine
end

