-- ==== Sys2Proof/Machine/Dispatch.lean ====
section
/-!
DEFINITION. The one dispatch: each operation to its meaning.
-/

namespace Sys2Proof.Machine

def exec (i : Instr) (s : State) : Host.Outcome State Fault Refusal :=
  match i with
  | .crcInit => Sys2Proof.Machine.execCrcInit s
  | .crcFeed b => Sys2Proof.Machine.execCrcFeed b s
  | .crcRead => Sys2Proof.Machine.execCrcRead s
  | .pecCheck r => Sys2Proof.Machine.execPecCheck r s
  | .curGet off => Sys2Proof.Machine.execCurGet off s
  | .curPut off mA => Sys2Proof.Machine.execCurPut off mA s
  | .fbClr => Sys2Proof.Machine.execFbClr s
  | .fbWr off b => Sys2Proof.Machine.execFbWr off b s
  | .fbRd off => Sys2Proof.Machine.execFbRd off s
  | .bfGet off width shift => Sys2Proof.Machine.execBfGet off width shift s
  | .bfPut off width shift value => Sys2Proof.Machine.execBfPut off width shift value s
  | .bfMark off apply => Sys2Proof.Machine.execBfMark off apply s
  | .le16Get off => Sys2Proof.Machine.execLe16Get off s
  | .le16Put off v => Sys2Proof.Machine.execLe16Put off v s

end Sys2Proof.Machine
end

