-- ==== Sys2Proof/Machine/Step.lean ====
section
/-!
DEFINITION. One step: the execution of one host-issued input (R4), atomic (R46).
-/

namespace Sys2Proof.Machine

/-- Takes the next input from the host and executes it. A reserved command word raises InvalidParameter (R72). Where
the host has nothing to issue there is no step (R4, log entry 3). -/
def step (s : State) : Host.Outcome State Fault Refusal :=
  match nextInput s with
  | none => .refused .noOperation
  | some (.command w, t) =>
    match decode w with
    | .ok i => exec i t
    | .error _ => raiseReserved w t
  | some (.operation i, t) => exec i t
  | some (.reset, t) => resetUnit t

/-- The host issues the command word `tableWord nbits w` next (R60; log entry 5 says how a program comes to run). -/
def State.withFetchWord (s : State) (nbits w : Nat) : State :=
  issueNext (.command (tableWord nbits w)) s

end Sys2Proof.Machine
end

