-- ==== Sys2Proof/Machine/Program.lean ====
section
/-!
DEFINITION. What a host does with operations: a program is a finite list of them (R27, R222), and the expansion of a
pseudo-operation stops at its first error (R222).
-/

namespace Sys2Proof.Machine

/-- A program: the operations of the list, issued in order. "An `err` outcome does not end the run by itself"
(R222). -/
def issueAll : List Instr → State → Host.Outcome State Fault Refusal
  | [], s => .next s
  | i :: is, s =>
    match exec i s with
    | .next t => issueAll is t
    | .fault r => .fault r
    | .refused r => .refused r

/-- The expansion of a pseudo-operation: the operations issued in order, up to and with the first that ends in an
error (R222: "stops that expansion at the first `err`"). -/
def issueUntilErr : List Instr → State → Host.Outcome State Fault Refusal
  | [], s => .next s
  | i :: is, s =>
    match exec i s with
    | .next t => if t.lastOutcome.isErr then .next t else issueUntilErr is t
    | .fault r => .fault r
    | .refused r => .refused r

/-- The state after a host's operations; `s` where there is none. -/
def stateAfter (s : State) : Host.Outcome State Fault Refusal → State
  | .next t => t
  | .fault _ => s
  | .refused _ => s

end Sys2Proof.Machine
end

