-- ==== Sys2Proof/Machine/Pseudo.lean ====
section
/-!
DEFINITION. The pseudo-operations (R76): for each, the host's checks in the order its rule lists them (R185), the
operations it expands to, and what the host hands to its caller. The unit never sees them.
-/

namespace Sys2Proof.Machine

/-! ### The two PEC transactions (40_crc_pec.md section 3) -/

/-- The host's check of a target address: `InvalidParameter(a7)` above 127 (R100, R182 row 9), else `rest`. -/
def checkAddress {α : Type} (a7 : Nat) (rest : Except OpError α) : Except OpError α :=
  if a7 < 2 ^ Config.addrBits then rest else .error ⟨.invalidParameter, .address a7⟩

/-- The host's check of a data length with PEC: `InvalidParameter(n)` above 65534 (R106, R182 row 10), else `rest`. -/
def checkLength {α : Type} (n : Nat) (rest : Except OpError α) : Except OpError α :=
  if n ≤ Config.maxLenPec then rest else .error ⟨.invalidParameter, .length n⟩

/-- `PEC.WRGEN a7, payload` (R102): address, then length; `n + 3` operations. -/
def pecWrgen (a7 : Nat) (payload : List Byte) : Except OpError (List Instr) :=
  checkAddress a7 <| checkLength payload.length <|
    .ok (.crcInit :: .crcFeed (addrW a7) :: (payload.map .crcFeed ++ [.crcRead]))

/-- `PEC.WRGEN` issued by the host: the state afterwards and the bytes put on the bus after the address byte, the
payload and then the PEC (R102). -/
def runPecWrgen (a7 : Nat) (payload : List Byte) (s : State) : State × Except OpError (List Byte) :=
  match pecWrgen a7 payload with
  | .error e => (s, .error e)
  | .ok ops =>
    let t := stateAfter s (issueUntilErr ops s)
    match t.lastOutcome with
    | .ok pec => (t, .ok (payload ++ [pec.setWidth 8]))
    | .err e => (t, .error e)

/-- `PEC.RDCHK a7, reg, received` when `n` data bytes were asked for (R103): address, length, no byte received, a
number of bytes other than `n + 1` (R183); then `m + 4` operations, the last received byte compared and not fed. -/
def pecRdchk (a7 : Nat) (reg : Byte) (n : Nat) (received : List Byte) : Except OpError (List Instr) :=
  checkAddress a7 <| checkLength n <|
    match received.getLast? with
    | none => .error ⟨.unexpectedResponseShape, .received 0⟩
    | some pec =>
      if received.length = n + 1 then
        .ok (.crcInit :: .crcFeed (addrW a7) :: .crcFeed reg :: .crcFeed (addrR a7) ::
          (received.dropLast.map .crcFeed ++ [.pecCheck pec]))
      else .error ⟨.unexpectedResponseShape, .received received.length⟩

/-- `PEC.RDCHK` issued by the host: the state afterwards and the data handed to the caller, all received bytes but the
PEC; on an error no data (R103, R184). -/
def runPecRdchk (a7 : Nat) (reg : Byte) (n : Nat) (received : List Byte) (s : State) :
    State × Except OpError (List Byte) :=
  match pecRdchk a7 reg n received with
  | .error e => (s, .error e)
  | .ok ops =>
    let t := stateAfter s (issueUntilErr ops s)
    match t.lastOutcome with
    | .ok _ => (t, .ok received.dropLast)
    | .err e => (t, .error e)

/-! ### Pin triples (R137, R150, R151) -/

/-- A GP pin's designation, direction and value (R137): numbers without a meaning of their own. -/
structure PinTriple where
  designation : Nat
  direction : Nat
  value : Nat
  deriving DecidableEq, Repr

/-- `PIN.GET off` (R150): designation, direction, value. -/
def pinGet (off : Nat) : List Instr :=
  [.bfGet off 3 0, .bfGet off 1 3, .bfGet off 1 4]

/-- The first component of a pin triple outside its range: designation 0 to 7, direction and value 0 or 1 (R137,
R151). -/
def PinTriple.outOfRange (p : PinTriple) : Option Nat :=
  if p.designation > 7 then some p.designation
  else if p.direction > 1 then some p.direction
  else if p.value > 1 then some p.value
  else none

/-- The three `BF.PUT`s of `PIN.PUT` (R151). -/
def pinPutOps (off : Nat) (p : PinTriple) : List Instr :=
  [ .bfPut off 3 0 (BitVec.ofNat 8 p.designation),
    .bfPut off 1 3 (BitVec.ofNat 8 p.direction),
    .bfPut off 1 4 (BitVec.ofNat 8 p.value) ]

/-- `PIN.PUT off, des, dir, val` (R151): the three values checked in that order. -/
def pinPut (off : Nat) (p : PinTriple) : Except OpError (List Instr) :=
  match p.outOfRange with
  | some v => .error ⟨.invalidParameter, .value v⟩
  | none => .ok (pinPutOps off p)

/-! ### Field groups (R138, R153) -/

/-- The fields of the ChipSettings record with one value each (R138); `gpPins` is `PinTriple`s. -/
inductive ConfigField where
  | accessControlState
  | usbPowerAttributes
  | vid
  | pid
  | requestedCurrentMa
  | clockDividerExponent
  | clockDutyCycle
  | dacVoltageReference
  | dacValue
  | adcVoltageReference
  | interruptMode
  | interruptFlag
  deriving DecidableEq, Repr

/-- The values of `interruptMode` (R138): "one of off, rising, falling, both". -/
inductive InterruptMode where
  | off
  | rising
  | falling
  | both
  deriving DecidableEq, Repr

/-- The number a frame carries for each interrupt mode. The spec gives none (91_not_in_source.md N5: "how interruptMode
maps to bits"), so the coding is a part of the argument `LAYOUT` (log entry 25). -/
structure InterruptCoding where
  off : Nat
  rising : Nat
  falling : Nat
  both : Nat
  deriving DecidableEq, Repr

/-- The number of a mode. -/
def InterruptCoding.code (m : InterruptCoding) : InterruptMode → Nat
  | .off => m.off
  | .rising => m.rising
  | .falling => m.falling
  | .both => m.both

/-- The mode a number stands for, if it stands for one. -/
def InterruptCoding.modeOf (m : InterruptCoding) (v : Nat) : Option InterruptMode :=
  [InterruptMode.off, .rising, .falling, .both].find? fun x => m.code x == v

/-- The four modes have four numbers. -/
def InterruptCoding.distinct (m : InterruptCoding) : Bool := decide [m.off, m.rising, m.falling, m.both].Nodup

/-- The value lies in the range R138 states for the field: 16 bits for `vid` and `pid`, `raw * 2` mA (R135) for the
requested current, 1 to 7, 0 to 3, 0 to 31, one of the four modes; the other fields have no stated range. -/
def ConfigField.inRange (modes : InterruptCoding) : ConfigField → Nat → Bool
  | .accessControlState, _ => true
  | .usbPowerAttributes, _ => true
  | .vid, v => decide (v ≤ 65535)
  | .pid, v => decide (v ≤ 65535)
  | .requestedCurrentMa, v => decide (v ≤ 510) && decide (v % 2 = 0)
  | .clockDividerExponent, v => decide (1 ≤ v) && decide (v ≤ 7)
  | .clockDutyCycle, v => decide (v ≤ 3)
  | .dacVoltageReference, _ => true
  | .dacValue, v => decide (v ≤ 31)
  | .adcVoltageReference, _ => true
  | .interruptMode, v => (modes.modeOf v).isSome
  | .interruptFlag, _ => true

/-- One field of a group: which field it is, its place in the byte, its value (R153: `(w, s, v)`). -/
structure GroupField where
  field : ConfigField
  width : Nat
  shift : Nat
  value : Nat
  deriving DecidableEq, Repr

/-- The field lies in the low `bits` bits of its byte: 7 below a marker (R153: "each `wi + si <= 7`"), 8 in a byte
without one (R131). -/
def GroupField.within (bits : Nat) (f : GroupField) : Bool := decide (f.width + f.shift ≤ bits)

/-- The value fits the field and lies in its stated range (R153). -/
def GroupField.valueFits (modes : InterruptCoding) (f : GroupField) : Bool :=
  decide (f.value < 2 ^ f.width) && f.field.inRange modes f.value

/-- The two fields have no bit in common (R153: "the fields pairwise disjoint"). -/
def GroupField.disjoint (f g : GroupField) : Bool :=
  decide (f.width = 0) || decide (g.width = 0) ||
    decide (f.shift + f.width ≤ g.shift) || decide (g.shift + g.width ≤ f.shift)

/-- The first field that shares a bit with a field after it. -/
def firstOverlap : List GroupField → Option GroupField
  | [] => none
  | f :: fs => if fs.all f.disjoint then firstOverlap fs else some f

/-- The host's checks of the fields it puts into the low `bits` bits of one byte, in the order R153 lists them (log
entry 7: what an overlap reports). -/
def fieldsCheck (bits : Nat) (modes : InterruptCoding) (fs : List GroupField) : Option OpError :=
  match fs.find? (fun f => !f.within bits) with
  | some f => some ⟨.invalidParameter, .field f.width f.shift⟩
  | none =>
    match fs.find? (fun f => !f.valueFits modes) with
    | some f => some ⟨.invalidParameter, .value f.value⟩
    | none =>
      match firstOverlap fs with
      | some f => some ⟨.invalidParameter, .field f.width f.shift⟩
      | none => none

/-- The host's checks of `GRP.ENC` (R153): the fields lie below the marker. -/
def grpCheck (modes : InterruptCoding) (fs : List GroupField) : Option OpError := fieldsCheck 7 modes fs

/-- The `BF.PUT` of one field of a group (R153). -/
def GroupField.putOp (off : Nat) (f : GroupField) : Instr :=
  .bfPut off f.width f.shift (BitVec.ofNat 8 f.value)

/-- The `k + 2` operations of `GRP.ENC` (R153). -/
def grpOps (off : Nat) (apply : Bool) (fs : List GroupField) : List Instr :=
  .fbWr off 0x00 :: (fs.map (GroupField.putOp off) ++ [.bfMark off apply])

/-- `GRP.ENC off, apply, fields` (R153): the host's checks, then the operations; `modes` is the coding that says which
numbers are an interrupt mode (R138). -/
def grpEnc (modes : InterruptCoding) (off : Nat) (apply : Bool) (fs : List GroupField) :
    Except OpError (List Instr) :=
  match grpCheck modes fs with
  | some e => .error e
  | none => .ok (grpOps off apply fs)

/-- The fields of a byte that carries no marker: the host's checks, then one `BF.PUT` per field (R131, R144). -/
def putFields (modes : InterruptCoding) (off : Nat) (fs : List GroupField) : Except OpError (List Instr) :=
  match fieldsCheck 8 modes fs with
  | some e => .error e
  | none => .ok (fs.map (GroupField.putOp off))

/-- The value bits of a group, shifted into place and combined: `(v1 << s1) or ... or (vk << sk)` (R153). -/
def groupBits (fs : List GroupField) : Byte :=
  fs.foldl (fun acc f => acc ||| (BitVec.ofNat 8 f.value <<< f.shift)) 0x00

end Sys2Proof.Machine
end

