-- ==== Sys2Proof/Machine/Settings.lean ====
section
/-!
DEFINITION. The configuration record the codec carries (R138, R139) and the OPEN parameter `LAYOUT` (R152, D27): where
a frame holds each field, its opcode and its markers. The numbers of a real layout are in no file of the spec; every
definition here takes the layout as an argument.
-/

namespace Sys2Proof.Machine

/-- The four frame kinds a layout is given for, separately (R152). -/
inductive FrameKind where
  | sramRead
  | flashRead
  | sramWrite
  | flashWrite
  deriving DecidableEq, Repr

/-- The first offset a field may have: byte 0 is the opcode, byte 1 of a response is the status (R47, R152). -/
def FrameKind.firstOffset : FrameKind → Nat
  | .sramRead => 2
  | .flashRead => 2
  | .sramWrite => 1
  | .flashWrite => 1

/-- The opcode of the frame in `FB` (R47): data to this unit (R62). -/
def frameOpcode (s : State) : Byte := s.fb.read 0

/-- The status of the response frame in `FB` is "0 = success" (R47). -/
def responseSucceeded (s : State) : Bool := s.fb.read 1 == 0

/-- The seven field groups of an SRAM settings write (R139). -/
inductive FieldGroup where
  | clockConfig
  | dacReference
  | dacValue
  | adcReference
  | interruptMode
  | interruptFlagClear
  | gpPinBlock
  deriving DecidableEq, Repr

/-- The fields of a group, by its name: the spec does not list them (log entry 19). The GP pin block has no field of
one value; its content is four pin triples. -/
def FieldGroup.fields : FieldGroup → List ConfigField
  | .clockConfig => [.clockDividerExponent, .clockDutyCycle]
  | .dacReference => [.dacVoltageReference]
  | .dacValue => [.dacValue]
  | .adcReference => [.adcVoltageReference]
  | .interruptMode => [.interruptMode]
  | .interruptFlagClear => [.interruptFlag]
  | .gpPinBlock => []

/-- The groups of fields with one value each; the seventh, the GP pin block, has four bytes of pins (R139). -/
def byteGroups : List FieldGroup :=
  [.clockConfig, .dacReference, .dacValue, .adcReference, .interruptMode, .interruptFlagClear]

/-- The seven groups, in the order of R139. -/
def allGroups : List FieldGroup := byteGroups ++ [.gpPinBlock]

/-- The fields of the record with one value each, in the order of the table of R138. -/
def allFields : List ConfigField :=
  [.accessControlState, .usbPowerAttributes, .vid, .pid, .requestedCurrentMa, .clockDividerExponent, .clockDutyCycle,
    .dacVoltageReference, .dacValue, .adcVoltageReference, .interruptMode, .interruptFlag]

/-- The fields a frame of the kind carries: all of them, but in an SRAM write only those of a group
(90_conflicts.md C6 (a)). -/
def FrameKind.fields : FrameKind → List ConfigField
  | .sramRead => allFields
  | .flashRead => allFields
  | .sramWrite => byteGroups.flatMap FieldGroup.fields
  | .flashWrite => allFields

/-! ### The layout -/

/-- `(off, width, shift)` of a field (R152). -/
structure FieldPlace where
  off : Nat
  width : Nat
  shift : Nat
  deriving DecidableEq, Repr

/-- The place of every field of R138 (R152); in the layout of an SRAM write the places of the five fields that have no
group are not read (`FrameKind.fields`). -/
structure FieldPlaces where
  accessControlState : FieldPlace
  usbPowerAttributes : FieldPlace
  vid : FieldPlace
  pid : FieldPlace
  requestedCurrentMa : FieldPlace
  clockDividerExponent : FieldPlace
  clockDutyCycle : FieldPlace
  dacVoltageReference : FieldPlace
  dacValue : FieldPlace
  adcVoltageReference : FieldPlace
  interruptMode : FieldPlace
  interruptFlag : FieldPlace
  deriving DecidableEq, Repr

/-- The place of one field. -/
def FieldPlaces.place (p : FieldPlaces) : ConfigField → FieldPlace
  | .accessControlState => p.accessControlState
  | .usbPowerAttributes => p.usbPowerAttributes
  | .vid => p.vid
  | .pid => p.pid
  | .requestedCurrentMa => p.requestedCurrentMa
  | .clockDividerExponent => p.clockDividerExponent
  | .clockDutyCycle => p.clockDutyCycle
  | .dacVoltageReference => p.dacVoltageReference
  | .dacValue => p.dacValue
  | .adcVoltageReference => p.adcVoltageReference
  | .interruptMode => p.interruptMode
  | .interruptFlag => p.interruptFlag

/-- The layout of one frame kind (R152): the place of each field and the pin base `p`.

That it also holds the chip's opcode of the frame kind is the model's choice where the spec's files do not agree (log
entry 24): R47 and U11 of 93_implementation_defined.md count the opcode numbers to `LAYOUT`, R7, R152 and D27 do not
list them. That it holds the coding of the interrupt mode is log entry 25. -/
structure FrameLayout where
  opcode : Byte
  places : FieldPlaces
  pinBase : Nat
  modes : InterruptCoding
  deriving DecidableEq, Repr

/-- The place of one field. -/
def FrameLayout.place (l : FrameLayout) (f : ConfigField) : FieldPlace := l.places.place f

/-- Where the GP pin block's marker lies. The spec leaves open whether the block has one marker byte or each pin byte
its own (91_not_in_source.md N4), so the layout says which. -/
inductive PinMarker where
  | oneByte (off : Nat)
  | eachPin
  deriving DecidableEq, Repr

/-- The offset of each group's marker byte in an SRAM write (R139, R152). -/
structure GroupMarkers where
  clockConfig : Nat
  dacReference : Nat
  dacValue : Nat
  adcReference : Nat
  interruptMode : Nat
  interruptFlagClear : Nat
  gpPinBlock : PinMarker
  deriving DecidableEq, Repr

/-- The OPEN parameter `LAYOUT` (R152): a layout per frame kind, "since nothing says they agree". -/
structure Layout where
  sramRead : FrameLayout
  flashRead : FrameLayout
  sramWrite : FrameLayout
  flashWrite : FrameLayout
  markers : GroupMarkers
  deriving DecidableEq, Repr

/-- The four consecutive offsets of the pin triples (R137, R152). -/
def Layout.pinBytes (l : Layout) : List Nat := (List.range 4).map (l.sramWrite.pinBase + ·)

/-- The offsets of the marker bytes of a group (R139, R152). -/
def Layout.markerBytes (l : Layout) : FieldGroup → List Nat
  | .clockConfig => [l.markers.clockConfig]
  | .dacReference => [l.markers.dacReference]
  | .dacValue => [l.markers.dacValue]
  | .adcReference => [l.markers.adcReference]
  | .interruptMode => [l.markers.interruptMode]
  | .interruptFlagClear => [l.markers.interruptFlagClear]
  | .gpPinBlock =>
    match l.markers.gpPinBlock with
    | .oneByte off => [off]
    | .eachPin => l.pinBytes

/-- The offsets of all marker bytes, in the order of the groups. -/
def Layout.markerOffsets (l : Layout) : List Nat := allGroups.flatMap l.markerBytes

/-- The bytes of an SRAM write that hold a field, a pin triple or a marker, each once. Which of them share a byte is the
layout's: neither the fields of one group nor a field and its marker need to (R139, R152, 91_not_in_source.md N4). -/
def Layout.groupBytes (l : Layout) : List Nat :=
  (FrameKind.sramWrite.fields.map (fun f => (l.sramWrite.place f).off) ++ (l.pinBytes ++ l.markerOffsets)).dedup

/-- The bits of `FB` a field occupies, as (offset, bit of the byte); bits 8 and up of a 16-bit pair are in the next
byte (R43). -/
def FieldPlace.bits (p : FieldPlace) : List (Nat × Nat) :=
  (List.range p.width).map fun j => (p.off + (p.shift + j) / 8, (p.shift + j) % 8)

/-- The bits of the four pin bytes that no value field may have: all of them, bits 7:5 too, which an encoder leaves 0
but for a marker (R137, D30). -/
def pinBits (p : Nat) : List (Nat × Nat) :=
  (List.range 4).flatMap fun k => (List.range 8).map fun j => (p + k, j)

/-- The field's place has the shape its kind of value needs: `vid` and `pid` two whole bytes, the requested current
one whole byte (D18), any other field within one byte; all inside the frame (R152). -/
def placeShape (k : FrameKind) (f : ConfigField) (p : FieldPlace) : Bool :=
  decide (k.firstOffset ≤ p.off) &&
    match f with
    | .vid => decide (p.off ≤ 62) && decide (p.width = 16) && decide (p.shift = 0)
    | .pid => decide (p.off ≤ 62) && decide (p.width = 16) && decide (p.shift = 0)
    | .requestedCurrentMa => decide (p.off ≤ 63) && decide (p.width = 8) && decide (p.shift = 0)
    | _ => decide (p.off ≤ 63) && decide (p.width + p.shift ≤ 8)

/-- No bit is in two lists. -/
def disjointBits : List (List (Nat × Nat)) → Bool
  | [] => true
  | l :: ls => ls.all (fun m => m.all fun x => !l.contains x) && disjointBits ls

/-- The constraints on the layout of one frame kind (R152): offsets inside the frame, pairs and pins of their shape,
no bit used twice; and the four interrupt modes have four numbers (log entry 25). -/
def FrameLayout.allowed (k : FrameKind) (l : FrameLayout) : Bool :=
  k.fields.all (fun f => placeShape k f (l.place f))
    && decide (k.firstOffset ≤ l.pinBase) && decide (l.pinBase + 3 ≤ 63)
    && disjointBits (pinBits l.pinBase :: k.fields.map fun f => (l.place f).bits)
    && l.modes.distinct

/-- The constraints on a marker byte (R152): inside the frame, and no value field in its bit 7. -/
def markerAllowed (l : FrameLayout) (off : Nat) : Bool :=
  decide (FrameKind.sramWrite.firstOffset ≤ off) && decide (off ≤ 63)
    && FrameKind.sramWrite.fields.all fun f => !((l.place f).bits.contains (off, 7))

/-- The constraints the document imposes on any `LAYOUT` (R152). -/
def Layout.allowed (l : Layout) : Bool :=
  l.sramRead.allowed .sramRead && l.flashRead.allowed .flashRead && l.sramWrite.allowed .sramWrite
    && l.flashWrite.allowed .flashWrite
    && l.markerOffsets.all (markerAllowed l.sramWrite)

/-- The response in `FB` echoes the opcode of the command (R47: "echoed back in the response"). -/
def FrameLayout.echoed (l : FrameLayout) (s : State) : Bool := frameOpcode s == l.opcode

/-! ### The record -/

/-- The operation that reads a field: `LE16.GET` for the pairs, `CUR.GET` for the current, else `BF.GET` (log entry
18). -/
def getOp (f : ConfigField) (p : FieldPlace) : Instr :=
  match f with
  | .vid => .le16Get p.off
  | .pid => .le16Get p.off
  | .requestedCurrentMa => .curGet p.off
  | _ => .bfGet p.off p.width p.shift

/-- The operation that writes a field's value: `LE16.PUT`, `CUR.PUT`, else `BF.PUT` (log entry 18). -/
def putOp (f : ConfigField) (p : FieldPlace) (v : Nat) : Instr :=
  match f with
  | .vid => .le16Put p.off (BitVec.ofNat 16 v)
  | .pid => .le16Put p.off (BitVec.ofNat 16 v)
  | .requestedCurrentMa => .curPut p.off (BitVec.ofNat 16 v)
  | _ => .bfPut p.off p.width p.shift (BitVec.ofNat 8 v)

/-- The ChipSettings record (R138). The interrupt mode is one of four; what the other codes mean is not in the spec
(91_not_in_source.md N5), so every other field is the number the frame carries, the requested current the number of
mA. -/
structure ChipSettings where
  accessControlState : Nat
  usbPowerAttributes : Nat
  vid : Nat
  pid : Nat
  requestedCurrentMa : Nat
  clockDividerExponent : Nat
  clockDutyCycle : Nat
  dacVoltageReference : Nat
  dacValue : Nat
  adcVoltageReference : Nat
  interruptMode : InterruptMode
  interruptFlag : Nat
  gpPins : Vector PinTriple 4
  deriving DecidableEq, Repr

/-- The number a frame carries for a field. -/
def ChipSettings.value (modes : InterruptCoding) (c : ChipSettings) : ConfigField → Nat
  | .accessControlState => c.accessControlState
  | .usbPowerAttributes => c.usbPowerAttributes
  | .vid => c.vid
  | .pid => c.pid
  | .requestedCurrentMa => c.requestedCurrentMa
  | .clockDividerExponent => c.clockDividerExponent
  | .clockDutyCycle => c.clockDutyCycle
  | .dacVoltageReference => c.dacVoltageReference
  | .dacValue => c.dacValue
  | .adcVoltageReference => c.adcVoltageReference
  | .interruptMode => modes.code c.interruptMode
  | .interruptFlag => c.interruptFlag

/-- The value fits the place the layout gives the field, and lies in the field's stated range (R138). The current's
place holds `raw`, half the value (R135). -/
def valueFitsPlace (l : FrameLayout) (c : ChipSettings) (f : ConfigField) : Bool :=
  f.inRange l.modes (c.value l.modes f) &&
    match f with
    | .requestedCurrentMa => true
    | _ => decide (c.value l.modes f < 2 ^ (l.place f).width)

/-- The host's checks of a record for a frame of the kind (R138, D28): the fields in the order of R138, then the
pins (log entry 18). -/
def settingsCheck (k : FrameKind) (l : FrameLayout) (c : ChipSettings) : Option OpError :=
  match k.fields.find? (fun f => !valueFitsPlace l c f) with
  | some f => some ⟨.invalidParameter, .value (c.value l.modes f)⟩
  | none =>
    match c.gpPins.toList.findSome? PinTriple.outOfRange with
    | some v => some ⟨.invalidParameter, .value v⟩
    | none => none

/-- The `BF.PUT`s of four pin triples at consecutive offsets (R139). -/
def pinBlockOps (base : Nat) (pins : Vector PinTriple 4) : List Instr :=
  (pins.toList.zipIdx base).flatMap fun x => pinPutOps x.2 x.1

/-- A new command frame: a cleared buffer (R216) with the opcode at offset 0 (R47; log entry 24). -/
def startFrame (l : FrameLayout) : List Instr := [.fbClr, .fbWr 0 l.opcode]

/-- A frame with every field its kind carries and the four pins, without markers. -/
def encodeRecord (k : FrameKind) (l : FrameLayout) (c : ChipSettings) : Except OpError (List Instr) :=
  match settingsCheck k l c with
  | some e => .error e
  | none =>
    .ok (startFrame l ++ (k.fields.map (fun f => putOp f (l.place f) (c.value l.modes f)) ++
      pinBlockOps l.pinBase c.gpPins))

/-- A Flash settings write (R139): the full record, "no selective-field marker scheme". -/
def flashWrite (l : Layout) (c : ChipSettings) : Except OpError (List Instr) :=
  encodeRecord .flashWrite l.flashWrite c

/-- The operations that decode a whole frame: every field its kind carries, then the four pin triples (R150, R152). -/
def readSettings (k : FrameKind) (l : FrameLayout) : List Instr :=
  k.fields.map (fun f => getOp f (l.place f)) ++ (List.range 4).flatMap (fun i => pinGet (l.pinBase + i))

/-- What `readSettings` returns for a record, in its order. -/
def settingsValues (k : FrameKind) (l : FrameLayout) (c : ChipSettings) : List Nat :=
  k.fields.map (c.value l.modes) ++ c.gpPins.toList.flatMap fun p => [p.designation, p.direction, p.value]

/-! ### Selective update -/

/-- "tagged variants: Unchanged | SetTo(value)" (R156). -/
inductive Update (α : Type) where
  | unchanged
  | setTo (v : α)
  deriving DecidableEq, Repr

/-- The update requests a change. -/
def Update.isSet {α : Type} : Update α → Bool
  | .unchanged => false
  | .setTo _ => true

/-- What the caller of an SRAM write supplies for each of the seven groups (R139, R156). The clock's two values are the
divider exponent and the duty cycle. The value of the interrupt-flag-clear group is a number without a meaning: it is a
command to clear, not the record's flag (90_conflicts.md C6 (b)). -/
structure SramUpdate where
  clockConfig : Update (Nat × Nat)
  dacReference : Update Nat
  dacValue : Update Nat
  adcReference : Update Nat
  interruptMode : Update InterruptMode
  interruptFlagClear : Update Nat
  gpPins : Update (Vector PinTriple 4)
  deriving DecidableEq, Repr

/-- The update with no group requested. -/
def SramUpdate.none : SramUpdate :=
  ⟨.unchanged, .unchanged, .unchanged, .unchanged, .unchanged, .unchanged, .unchanged⟩

/-- The update with all groups requested, the values those of a record: "a ChipSettings record with all apply-flags
set" (R154), as far as groups carry it (90_conflicts.md C6 (a)). -/
def SramUpdate.ofRecord (c : ChipSettings) : SramUpdate :=
  ⟨.setTo (c.clockDividerExponent, c.clockDutyCycle), .setTo c.dacVoltageReference, .setTo c.dacValue,
    .setTo c.adcVoltageReference, .setTo c.interruptMode, .setTo c.interruptFlag, .setTo c.gpPins⟩

/-- The values an update gives the fields of a group; none where the group is unchanged. -/
def SramUpdate.values (modes : InterruptCoding) (u : SramUpdate) : FieldGroup → List (ConfigField × Nat)
  | .clockConfig =>
    match u.clockConfig with
    | .unchanged => []
    | .setTo v => [(.clockDividerExponent, v.1), (.clockDutyCycle, v.2)]
  | .dacReference => match u.dacReference with | .unchanged => [] | .setTo v => [(.dacVoltageReference, v)]
  | .dacValue => match u.dacValue with | .unchanged => [] | .setTo v => [(.dacValue, v)]
  | .adcReference => match u.adcReference with | .unchanged => [] | .setTo v => [(.adcVoltageReference, v)]
  | .interruptMode => match u.interruptMode with | .unchanged => [] | .setTo m => [(.interruptMode, modes.code m)]
  | .interruptFlagClear => match u.interruptFlagClear with | .unchanged => [] | .setTo v => [(.interruptFlag, v)]
  | .gpPinBlock => []

/-- The group is requested: the caller's boolean for it (R139). -/
def SramUpdate.requests (u : SramUpdate) : FieldGroup → Bool
  | .clockConfig => u.clockConfig.isSet
  | .dacReference => u.dacReference.isSet
  | .dacValue => u.dacValue.isSet
  | .adcReference => u.adcReference.isSet
  | .interruptMode => u.interruptMode.isSet
  | .interruptFlagClear => u.interruptFlagClear.isSet
  | .gpPinBlock => u.gpPins.isSet

/-- A requested group has its marker at the offset. -/
def marksByte (l : Layout) (u : SramUpdate) (off : Nat) : Bool :=
  allGroups.any fun g => u.requests g && (l.markerBytes g).contains off

/-- The fields of the requested groups that the layout of an SRAM write places at the offset, each with its width and
shift (R152). -/
def byteFields (l : Layout) (u : SramUpdate) (off : Nat) : List GroupField :=
  ((byteGroups.flatMap (u.values l.sramWrite.modes)).filter fun x => (l.sramWrite.place x.1).off == off).map fun x =>
    ⟨x.1, (l.sramWrite.place x.1).width, (l.sramWrite.place x.1).shift, x.2⟩

/-- The pin triple an update puts at the offset (R139: all four pins where the block is requested). -/
def pinAt (l : Layout) (u : SramUpdate) (off : Nat) : Option PinTriple :=
  match u.gpPins with
  | .unchanged => none
  | .setTo pins => if l.sramWrite.pinBase ≤ off then pins.toList[off - l.sramWrite.pinBase]? else none

/-- Several expansions one after the other; the first refused one ends it. -/
def concatOps : List (Except OpError (List Instr)) → Except OpError (List Instr)
  | [] => .ok []
  | .error e :: _ => .error e
  | .ok ops :: rest =>
    match concatOps rest with
    | .error e => .error e
    | .ok more => .ok (ops ++ more)

/-- One byte of an SRAM write. Where a pin triple is put, `PIN.PUT`, the fields and last the marker, if a requested
group has it there (R217: "BF.MARK must come after the BF.PUTs of its byte"). Else `GRP.ENC` with `apply` where a
requested group has its marker there, `GRP.ENC` without where nothing there is requested (R153, R156), and the fields
alone where a requested group has fields there and its marker elsewhere (log entry 19). -/
def byteUpdate (l : Layout) (u : SramUpdate) (off : Nat) : Except OpError (List Instr) :=
  let fs := byteFields l u off
  let modes := l.sramWrite.modes
  match pinAt l u off with
  | some p =>
    concatOps [pinPut off p, putFields modes off fs, .ok (if marksByte l u off then [.bfMark off true] else [])]
  | none =>
    if marksByte l u off then grpEnc modes off true fs
    else if fs.isEmpty then grpEnc modes off false []
    else putFields modes off fs

/-- An SRAM settings write (R139, R154): a new frame, then its bytes, each built once (log entry 19). -/
def sramWrite (l : Layout) (u : SramUpdate) : Except OpError (List Instr) :=
  concatOps (.ok (startFrame l.sramWrite) :: l.groupBytes.map (byteUpdate l u))

/-- The byte of a pin triple (R137, R151). -/
def PinTriple.byte (p : PinTriple) : Byte := BitVec.ofNat 8 (p.designation + 8 * p.direction + 16 * p.value)

/-- What the frame of an SRAM write holds at an offset: the opcode; or the marker where a requested group has it there,
the values of the requested groups that lie there (R132, R153, R156) and the pin triple that lies there. -/
def sramByte (l : Layout) (u : SramUpdate) (off : Nat) : Byte :=
  if off = 0 then l.sramWrite.opcode
  else encGroup (marksByte l u off) 0x00 ||| groupBits (byteFields l u off) |||
    ((pinAt l u off).map PinTriple.byte).getD 0x00

/-! ### A whole frame -/

/-- The host stores a frame: byte `k` of the frame at offset `k`, in order (R40, R141). -/
def storeFrame (frame : List Byte) : List Instr :=
  (frame.zipIdx).map fun x => .fbWr x.2 x.1

/-- The host takes the frame out of `FB`, byte by byte in order (R40, R142). -/
def takeFrame : List Instr :=
  (List.range Config.frameLen).map .fbRd

end Sys2Proof.Machine
end

