-- ==== Sys2Proof/Safety.lean ====
section
/-!
DEFINITION. What claims are stated with: the invariant of the machine, which operations may write what, and the
duties of a host program (R213, R216, R217).
-/

namespace Sys2Proof.Machine

/-- The invariant every step keeps: the frame buffer is in canonical form, its offsets below 64. -/
def State.Inv (s : State) : Prop := s.fb.wf = true

/-- The operations that write the accumulator (R21). -/
def writesCrc : Instr → Bool
  | .crcInit => true
  | .crcFeed _ => true
  | .crcRead => false
  | .pecCheck _ => false
  | .curGet _ => false
  | .curPut _ _ => false
  | .fbClr => false
  | .fbWr _ _ => false
  | .fbRd _ => false
  | .bfGet _ _ _ => false
  | .bfPut _ _ _ _ => false
  | .bfMark _ _ => false
  | .le16Get _ => false
  | .le16Put _ _ => false

/-- The operations that read the accumulator (R21). -/
def readsCrc : Instr → Bool
  | .crcInit => false
  | .crcFeed _ => true
  | .crcRead => true
  | .pecCheck _ => true
  | .curGet _ => false
  | .curPut _ _ => false
  | .fbClr => false
  | .fbWr _ _ => false
  | .fbRd _ => false
  | .bfGet _ _ _ => false
  | .bfPut _ _ _ _ => false
  | .bfMark _ _ => false
  | .le16Get _ => false
  | .le16Put _ _ => false

/-- The offsets an operation may write (10_state.md section 1, R45). -/
def mayWrite : Instr → Nat → Bool
  | .crcInit, _ => false
  | .crcFeed _, _ => false
  | .crcRead, _ => false
  | .pecCheck _, _ => false
  | .curGet _, _ => false
  | .curPut off _, a => decide (a = off)
  | .fbClr, _ => true
  | .fbWr off _, a => decide (a = off)
  | .fbRd _, _ => false
  | .bfGet _ _ _, _ => false
  | .bfPut off _ _ _, a => decide (a = off)
  | .bfMark off _, a => decide (a = off)
  | .le16Get _, _ => false
  | .le16Put off _, a => decide (a = off) || decide (a = off + 1)

/-- The offset and the width in bytes of the one access an operation makes to the frame buffer at an offset of its
own (R45, R48); `FB.CLR` and the CRC operations have none. -/
def accessOf : Instr → Option (Nat × Nat)
  | .crcInit => none
  | .crcFeed _ => none
  | .crcRead => none
  | .pecCheck _ => none
  | .curGet off => some (off, 1)
  | .curPut off _ => some (off, 1)
  | .fbClr => none
  | .fbWr off _ => some (off, 1)
  | .fbRd off => some (off, 1)
  | .bfGet off _ _ => some (off, 1)
  | .bfPut off _ _ _ => some (off, 1)
  | .bfMark off _ => some (off, 1)
  | .le16Get off => some (off, 2)
  | .le16Put off _ => some (off, 2)

/-- The operations of the CRC engine (R70: codes 0x1 to 0x4); the other ten work on the frame buffer (R32). -/
def crcOperation : Instr → Bool
  | .crcInit => true
  | .crcFeed _ => true
  | .crcRead => true
  | .pecCheck _ => true
  | .curGet _ => false
  | .curPut _ _ => false
  | .fbClr => false
  | .fbWr _ _ => false
  | .fbRd _ => false
  | .bfGet _ _ _ => false
  | .bfPut _ _ _ _ => false
  | .bfMark _ _ => false
  | .le16Get _ => false
  | .le16Put _ _ => false

/-- The host seeds the accumulator before the first operation that reads it (R213). -/
def seedsFirst : List Instr → Bool
  | [] => true
  | .crcInit :: _ => true
  | i :: is => !readsCrc i && seedsFirst is

/-- The host clears the frame buffer before the first other operation on it (R216). -/
def clearsFirst : List Instr → Bool
  | [] => true
  | .fbClr :: _ => true
  | i :: is => crcOperation i && clearsFirst is

/-- The operation is a `BF.PUT` at the offset. -/
def putsFieldAt (off : Nat) : Instr → Bool
  | .crcInit => false
  | .crcFeed _ => false
  | .crcRead => false
  | .pecCheck _ => false
  | .curGet _ => false
  | .curPut _ _ => false
  | .fbClr => false
  | .fbWr _ _ => false
  | .fbRd _ => false
  | .bfGet _ _ _ => false
  | .bfPut o _ _ _ => decide (o = off)
  | .bfMark _ _ => false
  | .le16Get _ => false
  | .le16Put _ _ => false

/-- The host marks a byte after it has put the fields of that byte (R217). -/
def marksLast : List Instr → Bool
  | [] => true
  | .bfMark off _ :: is => is.all (fun i => !putsFieldAt off i) && marksLast is
  | _ :: is => marksLast is

/-- `t` is `s` after an operation that answered `ok(0)` and stored the one byte `b` at `off`: every other byte reads
as before, the accumulator and what the host has still to issue are as before. -/
def StoresByte (s t : State) (off : Nat) (b : Byte) : Prop :=
  t.fb.read off = b ∧ (∀ a, a ≠ off → t.fb.read a = s.fb.read a) ∧
    t.crc = s.crc ∧ t.pending = s.pending ∧ t.outcomes = s.outcomes ++ [.ok 0]

end Sys2Proof.Machine
end

