-- ==== Sys2Proof/Certificates/Slice0/Obligations.lean ====
section
/-!
DEFINITION. The statements for the provers. Each docstring names the rule it formalises and says where it rests on a
decision the spec marks as its own (`D<n>` of 92_eei_decisions.md) or on an entry of the assumption log.
-/

open Sys2Proof Sys2Proof.Machine

/-! ### Command words -/

/-- Decoding the command word of a well-formed operation gives it back, every operand at every value its field admits
(R60 to R71; the encoding is the spec's own decision D9). -/
def Obligations.DecodeOfEncodeIsIdentity : Prop :=
  ∀ i : Instr, i.wf = true → decode (encode i) = .ok i

/-- A word that decodes has one operation, which is well formed and encodes to the word: no bit of a word is dropped
(R60 to R72; decisions D9, D11). -/
def Obligations.EncodeOfDecodeIsIdentity : Prop :=
  ∀ (w : Word) (i : Instr), decode w = .ok i → i.wf = true ∧ encode i = w

/-- A word decodes to an operation of mnemonic `m` exactly where it matches the row of `m` in the opcode map, "a word
that matches no row is reserved" (R70, R72; decisions D9, D11). -/
def Obligations.DecodeFollowsOpcodeMap : Prop :=
  ∀ (w : Word) (m : String),
    (∃ i, decode w = .ok i ∧ i.mnemonic = m) ↔
      ∃ r ∈ opcodeRows, r.mnemonic = m ∧ w &&& r.mask = r.pattern

/-- Words written out in 95_test_vectors.md (parts B and C), one per operation, decode to the operation beside them. -/
def Obligations.SpecWordsDecode : Prop :=
  decode 0x10000000 = .ok .crcInit ∧
  decode 0x2000004C = .ok (.crcFeed 0x4C) ∧
  decode 0x30000000 = .ok .crcRead ∧
  decode 0x400000B2 = .ok (.pecCheck 0xB2) ∧
  decode 0x55000000 = .ok (.curGet 20) ∧
  decode 0x65000064 = .ok (.curPut 20 100) ∧
  decode 0x80000000 = .ok .fbClr ∧
  decode 0x91400074 = .ok (.fbWr 5 0x74) ∧
  decode 0xA1400000 = .ok (.fbRd 5) ∧
  decode 0xB1402200 = .ok (.bfGet 5 2 2) ∧
  decode 0xC1C04101 = .ok (.bfPut 7 1 4 1) ∧
  decode 0xD1C00001 = .ok (.bfMark 7 true) ∧
  decode 0xE2C00000 = .ok (.le16Get 11) ∧
  decode 0xFF80BEEF = .ok (.le16Put 62 0xBEEF)

/-! ### The step -/

/-- One step takes the first input of the host's list and runs it: a command word that decodes, as the operation it
decodes to; an operation, as itself. What the step adds around `exec` is that the host's list moves on
(R4, R5, R27; that the list stands in State is the model's choice, log entry 1). -/
def Obligations.StepRunsDecodedOperation : Prop :=
  ∀ (s : State) (rest : List Input),
    (∀ (w : Word) (i : Instr), s.pending = .command w :: rest → decode w = .ok i →
      step s = exec i (s.setPending rest)) ∧
    (∀ i : Instr, s.pending = .operation i :: rest → step s = exec i (s.setPending rest))

/-- A command word that matches no row of the opcode map raises `InvalidParameter(word)` and changes no state
(R72; decision D11). -/
def Obligations.ReservedWordRaisesInvalidParameter : Prop :=
  ∀ (s : State) (w : Word) (rest : List Input),
    s.pending = .command w :: rest → (∀ r ∈ opcodeRows, w &&& r.mask ≠ r.pattern) →
      step s = .next ((s.setPending rest).addOutcome (.err ⟨.invalidParameter, .word w⟩))

/-- The reset event clears the accumulator and every byte of the frame buffer (R210, R25; decision D12); it is no
operation, so it has no outcome, and the host keeps what it holds (log entry 4). -/
def Obligations.ResetEventClearsUnit : Prop :=
  ∀ (s : State) (rest : List Input), s.pending = .reset :: rest →
    ∃ t, step s = .next t ∧ t.crc = 0x00 ∧ (∀ a, t.fb.read a = 0x00) ∧ t.pending = rest ∧ t.outcomes = s.outcomes

/-- With nothing to issue there is no step (R4: "it has no step that is not the execution of a host-issued operation";
that this is a refusal is the model's choice, log entry 3); with an input to issue the step always goes on, and takes
one input. -/
def Obligations.StepGoesOnUnlessNothingIsIssued : Prop :=
  ∀ s : State,
    (s.pending = [] → step s = .refused .noOperation) ∧
    (s.pending ≠ [] → ∃ t, step s = .next t ∧ t.pending = s.pending.tail)

/-- The state after reset: `crc = 0x00`, every byte of the frame buffer 0x00 (R25; decision D12). -/
def Obligations.ResetStateIsAllZero : Prop :=
  State.reset.crc = 0x00 ∧ ∀ a, State.reset.fb.read a = 0x00

/-- The frame buffer is in canonical form after reset. -/
def Obligations.ResetFrameBufferIsCanonical : Prop := State.reset.Inv

/-- Every step keeps the frame buffer in canonical form: offsets rising and below 64, no listed byte that reads as
unlisted (R23, R32, R42: 64 offsets and no other; log entry 6 for the form). -/
def Obligations.StepKeepsFrameBufferCanonical : Prop :=
  ∀ s t : State, s.Inv → step s = .next t → t.Inv

/-- A run of the machine over the command words of a program is the program at the operation level: the operations in
issue order, one step each (R5, R27, R222; decisions D4, D9; the queue is log entry 1). -/
def Obligations.RunOfCommandWordsIsTheProgram : Prop :=
  ∀ (ops : List Instr) (s : State), (∀ i ∈ ops, i.wf = true) →
    Sys2Proof.core.run ops.length (s.setPending (ops.map fun i => .command (encode i))) =
      issueAll ops (s.setPending [])

/-! ### The CRC-8/PEC engine -/

/-- `CRC.INIT` loads the seed, returns `ok(0)` and leaves everything else, the frame buffer among it (R97). -/
def Obligations.CrcInitLoadsSeed : Prop :=
  encode .crcInit = 0x10000000 ∧
  (∀ s : State, exec .crcInit s = .next ((s.setCrc 0x00).addOutcome (.ok 0))) ∧
  (∀ s t : State, exec .crcInit s = .next t → ∃ u, exec .crcInit t = .next u ∧ u.crc = t.crc ∧ u.fb = t.fb)

/-- `CRC.FEED b` replaces the accumulator by the CRC of `c xor b` shifted eight times through the polynomial, returns
`ok(0)` and leaves everything else (R98 with R94; decisions D5, D6, D10, and R94 is derived by the spec). -/
def Obligations.CrcFeedUpdatesAccumulator : Prop :=
  ∀ (b : Byte) (s : State),
    encode (.crcFeed b) = 0x20000000 ||| b.setWidth 32 ∧
    exec (.crcFeed b) s = .next ((s.setCrc (step1^[8] (s.crc ^^^ b))).addOutcome (.ok 0))

/-- `CRC.READ` returns the accumulator and changes no state; what it returns is the CRC of the bytes fed since the last
`CRC.INIT` or reset (R99). -/
def Obligations.CrcReadReturnsAccumulator : Prop :=
  encode .crcRead = 0x30000000 ∧
  (∀ s : State, exec .crcRead s = .next (s.addOutcome (.ok (s.crc.setWidth 16)))) ∧
  (∀ (s : State) (bs : List Byte), ∃ t,
    issueAll (.crcInit :: (bs.map .crcFeed ++ [.crcRead])) s = .next t ∧
      t.lastOutcome = .ok ((crc8 bs).setWidth 16)) ∧
  (∀ (s u : State) (bs : List Byte), resetUnit s = .next u → ∃ t,
    issueAll (bs.map .crcFeed ++ [.crcRead]) u = .next t ∧ t.lastOutcome = .ok ((crc8 bs).setWidth 16))

/-- `PEC.CHECK r` with `r` equal to the accumulator returns it; nothing is fed and no state changes
(R101; decision D25). -/
def Obligations.PecCheckMatchReturnsAccumulator : Prop :=
  ∀ (r : Byte) (s : State), s.crc = r →
    encode (.pecCheck r) = 0x40000000 ||| r.setWidth 32 ∧
    exec (.pecCheck r) s = .next (s.addOutcome (.ok (r.setWidth 16)))

/-- `PEC.CHECK r` with any other `r` raises `PecMismatch(computed = crc, received = r)`; nothing is fed and no state
changes (R101; decision D25). -/
def Obligations.PecCheckMismatchRaises : Prop :=
  ∀ (r : Byte) (s : State), s.crc ≠ r →
    exec (.pecCheck r) s = .next (s.addOutcome (.err ⟨.pecMismatch, .pec s.crc r⟩))

/-- The CRC of a sequence: seed 0, then one update per byte, first byte first (R93); a program that seeds and feeds
leaves it in the accumulator. -/
def Obligations.FeedingComputesCrc8 : Prop :=
  crc8 [] = 0x00 ∧
  (∀ (bs : List Byte) (b : Byte), crc8 (bs ++ [b]) = upd (crc8 bs) b) ∧
  (∀ (bs : List Byte) (s : State), ∃ t,
    issueAll (.crcInit :: bs.map .crcFeed) s = .next t ∧ t.crc = crc8 bs ∧ t.fb = s.fb)

/-! ### The frame buffer and the codec -/

/-- `FB.CLR` makes all 64 bytes 0x00, returns `ok(0)` and does not touch the accumulator (R140). -/
def Obligations.FbClrZeroesTheFrame : Prop :=
  encode .fbClr = 0x80000000 ∧
  ∀ s : State, ∃ t, exec .fbClr s = .next t ∧ (∀ a, t.fb.read a = 0x00) ∧
    t.crc = s.crc ∧ t.pending = s.pending ∧ t.outcomes = s.outcomes ++ [.ok 0]

/-- `FB.WR off, b` stores the byte at `off`, and no other byte changes (R141; decision D8). -/
def Obligations.FbWrStoresTheByte : Prop :=
  ∀ (off : Nat) (b : Byte) (s : State), off ≤ 63 →
    encode (.fbWr off b) = 0x90000000 ||| (BitVec.ofNat 32 off <<< 22) ||| b.setWidth 32 ∧
    ∃ t, exec (.fbWr off b) s = .next t ∧ StoresByte s t off b

/-- `FB.RD off` returns the byte at `off` and changes no state (R142; decision D8). -/
def Obligations.FbRdReturnsTheByte : Prop :=
  ∀ (off : Nat) (s : State), off ≤ 63 →
    encode (.fbRd off) = 0xA0000000 ||| (BitVec.ofNat 32 off <<< 22) ∧
    exec (.fbRd off) s = .next (s.addOutcome (.ok ((s.fb.read off).setWidth 16)))

/-- `BF.GET off, width, shift` returns the byte divided by `2^shift` and cut to `width` bits, for any width and shift,
and changes no state (R143 with R130; decision D14). -/
def Obligations.BfGetReturnsTheField : Prop :=
  ∀ (off width shift : Nat) (s : State), off ≤ 63 →
    (width ≤ 15 → shift ≤ 7 →
      encode (.bfGet off width shift) = 0xB0000000 ||| (BitVec.ofNat 32 off <<< 22) |||
        (BitVec.ofNat 32 shift <<< 12) ||| (BitVec.ofNat 32 width <<< 8)) ∧
    exec (.bfGet off width shift) s =
      .next (s.addOutcome (.ok (BitVec.ofNat 16 ((s.fb.read off).toNat / 2 ^ shift % 2 ^ width))))

/-- `BF.PUT off, width, shift, value` ORs the shifted value into the byte where the field lies in the byte and the
value in the field; no other byte changes (R144 with R131; decision D15). -/
def Obligations.BfPutOrsTheValueIn : Prop :=
  ∀ (off width shift : Nat) (value : Byte) (s : State),
    off ≤ 63 → width + shift ≤ 8 → value.toNat < 2 ^ width →
    (shift ≤ 7 →
      encode (.bfPut off width shift value) = 0xC0000000 ||| (BitVec.ofNat 32 off <<< 22) |||
        (BitVec.ofNat 32 shift <<< 12) ||| (BitVec.ofNat 32 width <<< 8) ||| value.setWidth 32) ∧
    ∃ t, exec (.bfPut off width shift value) s = .next t ∧
      StoresByte s t off (s.fb.read off ||| BitVec.ofNat 8 (value.toNat * 2 ^ shift))

/-- `BF.PUT` refuses a field that runs past bit 7, and then a value that does not fit the field; no state changes
(R144, R185, R186; decisions D15, D19, D20). -/
def Obligations.BfPutRefusesWhatDoesNotFit : Prop :=
  ∀ (off width shift : Nat) (value : Byte) (s : State), off ≤ 63 →
    (8 < width + shift →
      exec (.bfPut off width shift value) s =
        .next (s.addOutcome (.err ⟨.invalidParameter, .field width shift⟩))) ∧
    (width + shift ≤ 8 → 2 ^ width ≤ value.toNat →
      exec (.bfPut off width shift value) s =
        .next (s.addOutcome (.err ⟨.invalidParameter, .value value.toNat⟩)))

/-- `BF.MARK off, 1` sets bit 7 of a byte whose bit 7 is clear, and `BF.MARK off, 0` makes any byte 0x00; no other
byte changes (R145 with R132; decision D16). -/
def Obligations.BfMarkMarksOrBlanks : Prop :=
  ∀ (off : Nat) (s : State), off ≤ 63 →
    encode (.bfMark off true) = 0xD0000000 ||| (BitVec.ofNat 32 off <<< 22) ||| 1 ∧
    encode (.bfMark off false) = 0xD0000000 ||| (BitVec.ofNat 32 off <<< 22) ∧
    (∃ t, exec (.bfMark off false) s = .next t ∧ StoresByte s t off 0x00) ∧
    ((s.fb.read off).toNat < 128 →
      ∃ t, exec (.bfMark off true) s = .next t ∧
        StoresByte s t off (BitVec.ofNat 8 (128 + (s.fb.read off).toNat)))

/-- `BF.MARK off, 1` on a byte whose bit 7 is set raises `InvalidParameter(off)`; no state changes
(R145; decision D16). -/
def Obligations.BfMarkRefusesSecondMark : Prop :=
  ∀ (off : Nat) (s : State), off ≤ 63 → 128 ≤ (s.fb.read off).toNat →
    exec (.bfMark off true) s = .next (s.addOutcome (.err ⟨.invalidParameter, .offset off⟩))

/-- `LE16.GET off` returns the pair at `off`, the byte at the lower offset the least significant, and changes no state
(R146 with R133; decision D17). -/
def Obligations.Le16GetReturnsThePair : Prop :=
  ∀ (off : Nat) (s : State), off ≤ 62 →
    encode (.le16Get off) = 0xE0000000 ||| (BitVec.ofNat 32 off <<< 22) ∧
    exec (.le16Get off) s =
      .next (s.addOutcome (.ok (BitVec.ofNat 16 ((s.fb.read off).toNat + 256 * (s.fb.read (off + 1)).toNat))))

/-- `LE16.PUT off, v` replaces the two bytes at `off` and `off + 1` by the low and the high byte of `v`; no other byte
changes (R147 with R134; decision D17). -/
def Obligations.Le16PutStoresThePair : Prop :=
  ∀ (off : Nat) (v : Half) (s : State), off ≤ 62 →
    encode (.le16Put off v) = 0xF0000000 ||| (BitVec.ofNat 32 off <<< 22) ||| v.setWidth 32 ∧
    ∃ t, exec (.le16Put off v) s = .next t ∧
      t.fb.read off = BitVec.ofNat 8 (v.toNat % 256) ∧ t.fb.read (off + 1) = BitVec.ofNat 8 (v.toNat / 256) ∧
      (∀ a, a ≠ off → a ≠ off + 1 → t.fb.read a = s.fb.read a) ∧
      t.crc = s.crc ∧ t.pending = s.pending ∧ t.outcomes = s.outcomes ++ [.ok 0]

/-- A 16-bit value is held little-endian: after `LE16.PUT` at `off` a byte read there sees the low byte, one at
`off + 1` the high byte, and `LE16.GET` is `FB[off] or (FB[off+1] << 8)` (R43). -/
def Obligations.PairsAreLittleEndian : Prop :=
  ∀ (off : Nat) (v : Half) (s : State), off ≤ 62 →
    (∃ t, issueAll [.le16Put off v, .fbRd off, .fbRd (off + 1), .le16Get off] s = .next t ∧
      t.outcomes = s.outcomes ++
        [.ok 0, .ok ((v.extractLsb' 0 8).setWidth 16), .ok ((v.extractLsb' 8 8).setWidth 16), .ok v]) ∧
    (∃ t, exec (.le16Get off) s = .next t ∧
      t.lastOutcome = .ok ((s.fb.read off).setWidth 16 ||| ((s.fb.read (off + 1)).setWidth 16 <<< 8)))

/-- `CUR.GET off` returns twice the byte, without wrap, and changes no state (R148 with R135; decision D18). -/
def Obligations.CurGetDoublesTheByte : Prop :=
  ∀ (off : Nat) (s : State), off ≤ 63 →
    encode (.curGet off) = 0x50000000 ||| (BitVec.ofNat 32 off <<< 22) ∧
    ∃ v : Half, v.toNat = 2 * (s.fb.read off).toNat ∧ exec (.curGet off) s = .next (s.addOutcome (.ok v))

/-- `CUR.PUT off, mA` stores half of an even current up to 510 mA; no other byte changes, and `CUR.GET` then gives the
current back (R149 with R136; decision D18). -/
def Obligations.CurPutStoresHalf : Prop :=
  ∀ (off : Nat) (mA : Half) (s : State), off ≤ 63 → mA.toNat ≤ 510 → mA.toNat % 2 = 0 →
    encode (.curPut off mA) = 0x60000000 ||| (BitVec.ofNat 32 off <<< 22) ||| mA.setWidth 32 ∧
    ∃ t, exec (.curPut off mA) s = .next t ∧ StoresByte s t off (BitVec.ofNat 8 (mA.toNat / 2)) ∧
      ∃ u, exec (.curGet off) t = .next u ∧ u.lastOutcome = .ok mA

/-- `CUR.PUT` refuses a current above 510 mA or an odd one, and records the current; no state changes
(R149, R186; decisions D18, D19). -/
def Obligations.CurPutRefusesOddOrLarge : Prop :=
  ∀ (off : Nat) (mA : Half) (s : State), off ≤ 63 → (510 < mA.toNat ∨ mA.toNat % 2 = 1) →
    exec (.curPut off mA) s = .next (s.addOutcome (.err ⟨.invalidParameter, .value mA.toNat⟩))

/-- An access that does not lie in the 64 bytes, `off + n > 64` for an access of `n` bytes, raises
`InvalidParameter(off)` before any other check and changes no state (R48, R185; decisions D17, D20). -/
def Obligations.AccessOutsideFrameRaises : Prop :=
  ∀ (i : Instr) (off n : Nat) (s : State), accessOf i = some (off, n) → 64 < off + n →
    exec i s = .next (s.addOutcome (.err ⟨.invalidParameter, .offset off⟩))

/-! ### Rules of the whole machine -/

/-- Every operation, on every state, ends with exactly one outcome, and takes nothing else from the host (R6). -/
def Obligations.EveryOperationHasOneOutcome : Prop :=
  ∀ (i : Instr) (s : State), ∃ (t : State) (o : OpOutcome),
    exec i s = .next t ∧ t.outcomes = s.outcomes ++ [o] ∧ t.pending = s.pending

/-- An operation that ends in an error changes no state: the accumulator and all 64 bytes are as before
(R186; decision D19). -/
def Obligations.ErrorChangesNoState : Prop :=
  ∀ (i : Instr) (s t : State) (e : OpError),
    exec i s = .next t → t.outcomes = s.outcomes ++ [.err e] → t = s.addOutcome (.err e)

/-- No error is sticky: an error is reported in the outcome of the operation that found it and nowhere else, and the
next operation runs as if the failing one had not been issued (R28). -/
def Obligations.ErrorIsNotRemembered : Prop :=
  ∀ (i j : Instr) (s t : State) (e : OpError),
    exec i s = .next t → t.outcomes = s.outcomes ++ [.err e] →
      t.crc = s.crc ∧ t.fb = s.fb ∧ t.pending = s.pending ∧
      ∃ (u v : State) (o : OpOutcome),
        exec j s = .next u ∧ exec j t = .next v ∧ v.crc = u.crc ∧ v.fb = u.fb ∧
          u.outcomes = s.outcomes ++ [o] ∧ v.outcomes = t.outcomes ++ [o]

/-- What an operation does depends on the accumulator and the frame buffer alone: past outcomes and what the host has
still to issue do not reach it (R31, R52; decisions D4, D7). -/
def Obligations.EffectDependsOnUnitAlone : Prop :=
  ∀ (i : Instr) (s s' : State), s.crc = s'.crc → s.fb = s'.fb →
    ∃ (t t' : State) (o : OpOutcome),
      exec i s = .next t ∧ exec i s' = .next t' ∧ t.crc = t'.crc ∧ t.fb = t'.fb ∧
        t.outcomes = s.outcomes ++ [o] ∧ t'.outcomes = s'.outcomes ++ [o]

/-- The accumulator is written by `CRC.INIT` and `CRC.FEED` only (R21; decision D12). -/
def Obligations.OnlyInitAndFeedWriteAccumulator : Prop :=
  ∀ (i : Instr) (s t : State), i ≠ .crcInit → (∀ b, i ≠ .crcFeed b) → exec i s = .next t → t.crc = s.crc

/-- A byte of the frame buffer changes only where the operation may store: all of it for `FB.CLR`, the byte at `off`
for `FB.WR`, `BF.PUT`, `BF.MARK`, `CUR.PUT`, the two bytes at `off` for `LE16.PUT`, none for the other eight
(R45 and the table of 10_state.md section 1; decision D8). -/
def Obligations.OnlyNamedBytesChange : Prop :=
  ∀ (i : Instr) (s t : State) (a : Nat), mayWrite i a = false → exec i s = .next t → t.fb.read a = s.fb.read a

/-- The two sub-blocks share no state: a CRC operation neither reads nor writes the frame buffer, a codec operation
neither reads nor writes the accumulator (R21, R32; decisions D1, D8, D12). -/
def Obligations.SubBlocksShareNoState : Prop :=
  ∀ (i : Instr) (s t : State), exec i s = .next t →
    (crcOperation i = true → ∀ m : Memory, exec i (s.setFb m) = .next (t.setFb m)) ∧
    (crcOperation i = false → ∀ c : Byte, exec i (s.setCrc c) = .next (t.setCrc c))

/-- Of the nine error names no step ever records the six of the transport and the engine driver (R188). -/
def Obligations.StepNeverRecordsForeignErrors : Prop :=
  ∀ (s t : State) (e : OpError), step s = .next t → t.outcomes = s.outcomes ++ [.err e] →
    e.name ≠ .communicationFailure ∧ e.name ≠ .speedConfigurationFailure ∧ e.name ≠ .busTimeout ∧
      e.name ≠ .addressNack ∧ e.name ≠ .dataNack ∧ e.name ≠ .retryBudgetExhausted

/-- The errors of an operation: `PecMismatch` from `PEC.CHECK` alone, with the two bytes that differ; every other error
is `InvalidParameter` of an operation on the frame buffer (the table of R180, R182; decisions D15 to D18). -/
def Obligations.MismatchOnlyFromPecCheck : Prop :=
  ∀ (i : Instr) (s t : State) (e : OpError), exec i s = .next t → t.outcomes = s.outcomes ++ [.err e] →
    (∃ r, i = .pecCheck r ∧ s.crc ≠ r ∧ e = ⟨.pecMismatch, .pec s.crc r⟩) ∨
      (crcOperation i = false ∧ i ≠ .fbClr ∧ e.name = .invalidParameter)

/-- A read sees the latest earlier write to its location in issue order, or the reset value if there is none,
whatever operations that do not write the location stand between; the outcomes arrive in issue order, one per
operation (R50). The first clause is about any state, so about what any earlier write left. -/
def Obligations.ReadSeesLatestWrite : Prop :=
  ∀ (between : List Instr) (s : State),
    (∀ off, off ≤ 63 → (∀ i ∈ between, mayWrite i off = false) →
      (∃ t, issueAll (between ++ [.fbRd off]) s = .next t ∧ t.lastOutcome = .ok ((s.fb.read off).setWidth 16)) ∧
      (∀ b, ∃ t, issueAll (.fbWr off b :: (between ++ [.fbRd off])) s = .next t ∧
        t.lastOutcome = .ok (b.setWidth 16)) ∧
      (∃ t, issueAll (between ++ [.fbRd off]) State.reset = .next t ∧ t.lastOutcome = .ok 0)) ∧
    ((∀ i ∈ between, writesCrc i = false) →
      (∃ t, issueAll (between ++ [.crcRead]) s = .next t ∧ t.lastOutcome = .ok (s.crc.setWidth 16)) ∧
      (∃ t, issueAll (between ++ [.crcRead]) State.reset = .next t ∧ t.lastOutcome = .ok 0)) ∧
    (∃ (t : State) (new : List OpOutcome),
      issueAll between s = .next t ∧ t.outcomes = s.outcomes ++ new ∧ new.length = between.length)

/-- A frame stored byte by byte and taken out again keeps its order and its length: offset `k` holds frame byte `k`
(R40). -/
def Obligations.FrameKeepsOrderAndLength : Prop :=
  ∀ (frame : List Byte) (s : State), frame.length = 64 →
    ∃ t, issueAll (storeFrame frame ++ takeFrame) s = .next t ∧
      (∀ k, k ≤ 63 → t.fb.read k = frame.getD k 0) ∧
      t.outcomes = s.outcomes ++ (List.replicate 64 (.ok 0) ++ frame.map fun b => .ok (b.setWidth 16))

/-- A program that seeds before it reads the accumulator and clears before it works on the frame buffer has the same
outcomes from every state: it never depends on the reset values or on what stood in the unit before (R25, R212, R213,
and R216 in its `FB.CLR` form; R212 is derived by the spec, decision D12). -/
def Obligations.SeededClearedProgramIgnoresStartState : Prop :=
  ∀ ops : List Instr, seedsFirst ops = true → clearsFirst ops = true →
    ∃ new : List OpOutcome, ∀ s : State, ∃ t, issueAll ops s = .next t ∧ t.outcomes = s.outcomes ++ new

/-! ### Laws of the code (40_crc_pec.md sections 1 and 4) -/

/-- The update is linear over xor, and a bijection in each argument (R95, derived by the spec). -/
def Obligations.UpdateIsLinearAndBijective : Prop :=
  (∀ c c' b b' : Byte, upd (c ^^^ c') (b ^^^ b') = upd c b ^^^ upd c' b') ∧
  (∀ b : Byte, Function.Bijective fun c => upd c b) ∧ (∀ c : Byte, Function.Bijective fun b => upd c b)

/-- Round trip: the PEC read after feeding a sequence matches when the same sequence is fed again, from any state
(R108, derived by the spec; 90_conflicts.md C3). -/
def Obligations.PecOfSequenceMatchesSequence : Prop :=
  ∀ (bs : List Byte) (s s' t : State) (p : Half),
    issueAll (.crcInit :: (bs.map .crcFeed ++ [.crcRead])) s = .next t → t.lastOutcome = .ok p →
      ∃ t', issueAll (.crcInit :: (bs.map .crcFeed ++ [.pecCheck (p.setWidth 8)])) s' = .next t' ∧
        t'.lastOutcome = .ok p

/-- Feeding a byte leaves 0x00 exactly where the byte equals the accumulator, so the CRC of a sequence and its own CRC
is 0x00 (R109, derived by the spec). -/
def Obligations.ResidueIsZero : Prop :=
  (∀ c r : Byte, upd c r = 0x00 ↔ r = c) ∧ ∀ bs : List Byte, crc8 (bs ++ [crc8 bs]) = 0x00

/-- The code does not see leading zero bytes (R110, derived by the spec). -/
def Obligations.LeadingZerosAreUnseen : Prop :=
  ∀ (n : Nat) (bs : List Byte), crc8 (List.replicate n 0x00 ++ bs) = crc8 bs

/-- Inverting any one bit of a sequence changes its CRC (R111, derived by the spec). -/
def Obligations.SingleBitErrorIsDetected : Prop :=
  ∀ (bs : List Byte) (j k : Nat), j < bs.length → k < 8 →
    crc8 (bs.set j (bs.getD j 0 ^^^ (0x01 <<< k))) ≠ crc8 bs

/-! ### Laws of the codec -/

/-- What `putBits` puts in a field of zeros `getBits` gets back, another field that shares no bit with it stays, and
two fields can be put in either order (R131; the laws are derived by the spec, decision D15). -/
def Obligations.PutFieldReadsBack : Prop :=
  ∀ (acc v : Byte) (width shift : Nat), width + shift ≤ 8 → v.toNat < 2 ^ width →
    (getBits acc width shift = 0 → getBits (putBits acc v width shift) width shift = v.toNat) ∧
    (∀ width' shift' : Nat, shift + width ≤ shift' ∨ shift' + width' ≤ shift →
      getBits (putBits acc v width shift) width' shift' = getBits acc width' shift') ∧
    (∀ (v' : Byte) (width' shift' : Nat),
      putBits (putBits acc v width shift) v' width' shift' = putBits (putBits acc v' width' shift') v width shift)

/-! ### Pseudo-operations -/

/-- `PEC.WRGEN` puts the payload and then its PEC on the bus, the PEC being the CRC of the address byte with the write
bit and the payload; the frame buffer is untouched (R102; decisions D13, D24: the address byte is from general
knowledge, log entry 9). -/
def Obligations.PecWrgenAppendsPec : Prop :=
  ∀ (a7 : Nat) (payload : List Byte) (s : State), a7 ≤ 127 → payload.length ≤ 65534 →
    (runPecWrgen a7 payload s).2 = .ok (payload ++ [crc8 (BitVec.ofNat 8 (2 * a7) :: payload)]) ∧
    (runPecWrgen a7 payload s).1.fb = s.fb

/-- `PEC.RDCHK` hands over the data exactly where the last received byte is the CRC of both address bytes, the register
index and the data; else PecMismatch and no data (R103, R184; decisions D13, D22, log entry 9). -/
def Obligations.PecRdchkAcceptsExactlyRightPec : Prop :=
  ∀ (a7 : Nat) (reg pec : Byte) (data : List Byte) (s : State), a7 ≤ 127 → data.length ≤ 65534 →
    (runPecRdchk a7 reg data.length (data ++ [pec]) s).2 =
      (let c := crc8 (BitVec.ofNat 8 (2 * a7) :: reg :: BitVec.ofNat 8 (2 * a7 + 1) :: data)
       if c = pec then .ok data else .error ⟨.pecMismatch, .pec c pec⟩) ∧
    (runPecRdchk a7 reg data.length (data ++ [pec]) s).1.fb = s.fb

/-- The host's checks of the two PEC pseudo-operations come before any operation, in the order address, length, number
of received bytes; the unit's state is as it was (R102, R103, R106, R183, R185; decisions D13, D20, D22, D23). -/
def Obligations.PecHostChecksComeFirst : Prop :=
  ∀ (a7 n : Nat) (reg : Byte) (bs : List Byte) (s : State),
    (127 < a7 → runPecWrgen a7 bs s = (s, .error ⟨.invalidParameter, .address a7⟩) ∧
      runPecRdchk a7 reg n bs s = (s, .error ⟨.invalidParameter, .address a7⟩)) ∧
    (a7 ≤ 127 → 65534 < bs.length → runPecWrgen a7 bs s = (s, .error ⟨.invalidParameter, .length bs.length⟩)) ∧
    (a7 ≤ 127 → 65534 < n → runPecRdchk a7 reg n bs s = (s, .error ⟨.invalidParameter, .length n⟩)) ∧
    (a7 ≤ 127 → n ≤ 65534 → bs.length ≠ n + 1 →
      runPecRdchk a7 reg n bs s = (s, .error ⟨.unexpectedResponseShape, .received bs.length⟩))

/-- `PIN.GET` after `PIN.PUT` on a byte whose bits 4:0 are zero returns designation, direction and value
(R150, R151; the law is derived by the spec). -/
def Obligations.PinTripleReadsBack : Prop :=
  ∀ (off : Nat) (p : PinTriple) (s : State), off ≤ 63 → p.designation ≤ 7 → p.direction ≤ 1 → p.value ≤ 1 →
    (s.fb.read off).toNat % 32 = 0 →
    ∃ (ops : List Instr) (t u : State), pinPut off p = .ok ops ∧ issueUntilErr ops s = .next t ∧
      t.fb.read off =
        s.fb.read off ||| BitVec.ofNat 8 (p.designation + 8 * p.direction + 16 * p.value) ∧
      issueAll (pinGet off) t = .next u ∧
      u.outcomes = t.outcomes ++
        [.ok (BitVec.ofNat 16 p.designation), .ok (BitVec.ofNat 16 p.direction), .ok (BitVec.ofNat 16 p.value)]

/-- `GRP.ENC` leaves `encGroup(apply, values)` in its byte and touches nothing else; with `apply` every field reads
back as put (R153, R132; derived by the spec from R131 and R145). -/
def Obligations.GrpEncEncodesTheGroup : Prop :=
  ∀ (modes : InterruptCoding) (off : Nat) (apply : Bool) (fs : List GroupField) (s : State), off ≤ 63 →
    (∀ f ∈ fs, f.width + f.shift ≤ 7 ∧ f.value < 2 ^ f.width ∧ f.field.inRange modes f.value = true) →
    fs.Pairwise (fun f g => f.disjoint g = true) →
    ∃ (ops : List Instr) (t : State), grpEnc modes off apply fs = .ok ops ∧ issueUntilErr ops s = .next t ∧
      t.fb.read off = (if apply then 0x80 ||| groupBits fs else 0x00) ∧
      (apply = true → ∀ f ∈ fs, getBits (t.fb.read off) f.width f.shift = f.value) ∧
      (∀ a, a ≠ off → t.fb.read a = s.fb.read a) ∧ t.crc = s.crc ∧ t.pending = s.pending

/-- With every apply flag clear the field-group payload is all zero, whatever values were supplied (R155, derived by
the spec from R145; 90_conflicts.md C2). -/
def Obligations.AllClearFlagsGiveZeroPayload : Prop :=
  ∀ (modes : InterruptCoding) (groups : List (Nat × List GroupField)) (s : State),
    (∀ g ∈ groups, g.1 ≤ 63 ∧ grpCheck modes g.2 = none) →
    ∃ t, issueAll (.fbClr :: groups.flatMap fun g => grpOps g.1 false g.2) s = .next t ∧
      ∀ a, t.fb.read a = 0x00

/-- An SRAM write marks exactly the requested groups, for any layout that meets the constraints of R152 and any update:
every byte of the frame is `sramByte`, that is the opcode at offset 0, bit 7 in the marker bytes of the requested groups,
the values of the requested groups at their places, the four pin triples where they are requested, and 0 in every other
bit, so 0x00 where nothing is requested; and each BF.MARK comes after the BF.PUTs of its byte (R139, R156, R217 with
R132, R137 and R153). These rules do not give the shape of the
write: which fields a group has, what a byte holds that several groups share or that has a value and no marker, and the
order of the operations are the model's choice, log entry 19; the opcode at offset 0 is log entry 24. -/
def Obligations.SramWriteMarksRequestedGroupsOnly : Prop :=
  ∀ (l : Layout) (u : SramUpdate) (ops : List Instr) (s : State),
    l.allowed = true → sramWrite l u = .ok ops →
    marksLast ops = true ∧
    ∃ t, issueUntilErr ops s = .next t ∧ (∀ a, t.fb.read a = sramByte l u a) ∧ t.crc = s.crc ∧ t.pending = s.pending

/-- Settings round trip without markers: for any frame kind and any layout that meets the constraints of R152, a record
encoded into a frame reads back field by field, and the four pin triples with it, and the number read for the interrupt
mode stands for the record's mode (R154, derived by the spec; 90_conflicts.md C6; decision D27). Which operation carries
which field and the order of the fields are the model's choice, log entry 18; the coding of the modes as a part of the
layout is log entry 25. -/
def Obligations.SettingsRecordReadsBack : Prop :=
  ∀ (k : FrameKind) (l : FrameLayout) (c : ChipSettings) (ops : List Instr) (s : State),
    l.allowed k = true → encodeRecord k l c = .ok ops →
    (∃ t, issueAll (ops ++ readSettings k l) s = .next t ∧
      t.outcomes = s.outcomes ++
        (List.replicate ops.length (.ok 0) ++ (settingsValues k l c).map fun v => .ok (BitVec.ofNat 16 v))) ∧
    l.modes.modeOf (c.value l.modes .interruptMode) = some c.interruptMode

/-- Settings round trip with all apply flags set: for any layout that meets the constraints of R152, the SRAM write of a
record with every group requested goes through without an error, every marker reads 1, and every value put under a
marker and the four pin triples read back (R154, derived by the spec; 90_conflicts.md C6 says why the fields without a
group are not carried). The shape of the write is log entry 19, the operations that read are log entry 18. -/
def Obligations.AppliedRecordReadsBack : Prop :=
  ∀ (l : Layout) (c : ChipSettings) (ops : List Instr) (s : State),
    l.allowed = true → sramWrite l (SramUpdate.ofRecord c) = .ok ops →
    ∃ t, issueAll (ops ++ (l.markerOffsets.map (fun o => .bfGet o 1 7) ++
        readSettings .sramWrite l.sramWrite)) s = .next t ∧
      t.outcomes = s.outcomes ++
        (List.replicate ops.length (.ok 0) ++ (List.replicate l.markerOffsets.length (.ok 1) ++
          (settingsValues .sramWrite l.sramWrite c).map fun v => .ok (BitVec.ofNat 16 v)))
end

