-- ==== Sys2Proof/Laws/Codec.lean ====
section
/-!
SUPPORT. The values and bits of the codec functions.
-/

namespace Sys2Proof.Machine

/-- A field is the byte divided by `2^shift`, cut to `width` bits (R130: `byte >> shift` is `floor(byte / 2^shift)`). -/
theorem getBits_eq (byte : Byte) (width shift : Nat) :
    getBits byte width shift = byte.toNat / 2 ^ shift % 2 ^ width := by
  unfold getBits
  rw [Nat.shiftLeft_eq, Nat.one_mul, Nat.and_two_pow_sub_one_eq_mod, Nat.shiftRight_eq_div_pow]

/-- A field is at most the byte. -/
theorem getBits_le (byte : Byte) (width shift : Nat) : getBits byte width shift ≤ byte.toNat := by
  rw [getBits_eq]
  exact (Nat.mod_le _ _).trans (Nat.div_le_self _ _)

/-- A field is below `2^width`. -/
theorem getBits_lt (byte : Byte) (width shift : Nat) : getBits byte width shift < 2 ^ width := by
  rw [getBits_eq]
  exact Nat.mod_lt _ (Nat.two_pow_pos width)

/-- Bit `j` of a field is bit `shift + j` of the byte, for `j` below the width (R8, R130). -/
theorem testBit_getBits (byte : Byte) (width shift j : Nat) :
    (getBits byte width shift).testBit j = (decide (j < width) && byte.getLsbD (shift + j)) := by
  rw [getBits_eq, Nat.testBit_mod_two_pow, Nat.testBit_div_two_pow, BitVec.testBit_toNat, Nat.add_comm]

/-- Bit `n` of a byte after `putBits` (R131). -/
theorem getLsbD_putBits (acc value : Byte) (width shift n : Nat) :
    (putBits acc value width shift).getLsbD n =
      (acc.getLsbD n || (decide (n < 8) && !decide (n < shift) && value.getLsbD (n - shift))) := by
  simp [putBits]

/-- `encGroup` with the flag set (R132). -/
@[simp] theorem encGroup_true (v : Byte) : encGroup true v = 0x80 ||| v := rfl

/-- `encGroup` with the flag clear: the whole byte is zero (R132). -/
@[simp] theorem encGroup_false (v : Byte) : encGroup false v = 0x00 := rfl

/-- Doubling a byte does not wrap (R135). -/
theorem toNat_curDec (raw : Byte) : (curDec raw).toNat = 2 * raw.toNat := by
  have h := raw.isLt
  unfold curDec
  rw [BitVec.toNat_mul, BitVec.toNat_setWidth, show (2 : Half).toNat = 2 from rfl]
  omega

/-- Halving (R136). -/
theorem toNat_curEnc (mA : Half) : (curEnc mA).toNat = mA.toNat / 2 % 256 := by
  simp [curEnc, Nat.shiftRight_eq_div_pow]

/-- The two bytes of a pair (R133). -/
theorem toNat_le16dec (lo hi : Byte) : (le16dec lo hi).toNat = lo.toNat + 256 * hi.toNat := by
  have hl := lo.isLt
  have hh := hi.isLt
  unfold le16dec
  rw [BitVec.toNat_or, BitVec.toNat_shiftLeft, BitVec.toNat_setWidth, BitVec.toNat_setWidth, Nat.shiftLeft_eq,
    Nat.mod_eq_of_lt (by omega : lo.toNat < 2 ^ 16), Nat.mod_eq_of_lt (by omega : hi.toNat < 2 ^ 16),
    Nat.mod_eq_of_lt (by omega : hi.toNat * 2 ^ 8 < 2 ^ 16), Nat.or_comm,
    ← Nat.mul_comm (2 ^ 8), ← Nat.two_pow_add_eq_or_of_lt (by omega : lo.toNat < 2 ^ 8)]
  omega

end Sys2Proof.Machine
end

