-- ==== Sys2Proof/Laws/Crc.lean ====
section
/-!
SUPPORT. The table against the polynomial, and how the fold of the CRC unfolds.
-/

namespace Sys2Proof.Machine

/-- `T[n]` is `n << 4` through four steps of the polynomial: all 16 literals of R22 agree (R91). -/
theorem crcTable_eq_step1 : ∀ n : BitVec 4, crcTable n = step1^[4] (n.setWidth 8 <<< 4) := by decide

/-- The table is linear (R91). -/
theorem crcTable_xor : ∀ m n : BitVec 4, crcTable (m ^^^ n) = crcTable m ^^^ crcTable n := by decide

/-- "`T[n] <= 0x3F` for all `n`" (R91). -/
theorem crcTable_le : ∀ n : BitVec 4, crcTable n ≤ 0x3F := by decide

@[simp] theorem crc8_nil : crc8 [] = 0x00 := rfl

/-- One more byte at the end of a sequence is one more update (R93). -/
theorem crc8_append (s t : List Byte) : crc8 (s ++ t) = t.foldl upd (crc8 s) := by
  simp [crc8]

/-- What the truncation of R92 drops is never used again (R96): bits 7:4 of a wider accumulator and the low byte of its
shift are those of the 8-bit one. -/
theorem trunc_shiftLeft_xor (c : Nat) (x : Byte) :
    BitVec.ofNat 8 ((c <<< 4) ^^^ x.toNat) = (BitVec.ofNat 8 c <<< 4) ^^^ x := by
  apply BitVec.eq_of_getLsbD_eq
  intro i hi
  simp only [BitVec.getLsbD_ofNat, BitVec.getLsbD_xor, BitVec.getLsbD_shiftLeft, hi, decide_true, Bool.true_and,
    Nat.testBit_xor, Nat.testBit_shiftLeft, BitVec.testBit_toNat]
  by_cases h4 : i < 4
  · simp [h4, show ¬4 ≤ i by omega]
  · simp [h4, show 4 ≤ i by omega, show i - 4 < 8 by omega]

end Sys2Proof.Machine
end

