-- ==== Sys2Proof/Laws/Encoding.lean ====
section
/-!
SUPPORT. The bits and fields of a command word put together from its parts, and of the low halves of the formats.
-/

namespace Sys2Proof

/-- Which part a bit of a command word comes from (R61). -/
theorem getLsbD_commandWord (op : BitVec 4) (off : BitVec 6) (low : Half) (n : Nat) :
    (commandWord op off low).getLsbD n =
      if n < 16 then low.getLsbD n
      else if n < 22 then false
      else if n < 28 then off.getLsbD (n - 22)
      else op.getLsbD (n - 28) := by
  simp only [commandWord, BitVec.getLsbD_or, BitVec.getLsbD_shiftLeft, BitVec.getLsbD_setWidth]
  by_cases h1 : n < 16
  · simp [h1, show n < 32 by omega, show n < 28 by omega, show n < 22 by omega]
  · have hlow : low.getLsbD n = false := BitVec.getLsbD_of_ge low n (by omega)
    by_cases h2 : n < 22
    · simp [h1, h2, hlow, show n < 28 by omega]
    · by_cases h3 : n < 28
      · simp [h1, h2, h3, hlow, show n < 32 by omega, show n - 22 < 32 by omega]
      · have hoff : off.getLsbD (n - 22) = false := BitVec.getLsbD_of_ge off _ (by omega)
        by_cases h4 : n < 32
        · simp [h1, h2, h3, h4, hlow, hoff, show n - 28 < 32 by omega]
        · have hop : op.getLsbD (n - 28) = false := BitVec.getLsbD_of_ge op _ (by omega)
          simp [h1, h2, h3, h4, hlow, hop]

@[simp] theorem opField_commandWord (op : BitVec 4) (off : BitVec 6) (low : Half) :
    opField (commandWord op off low) = op := by
  ext i hi
  simp [opField, getLsbD_commandWord, show ¬ 28 + i < 16 by omega, show ¬ 28 + i < 22 by omega, hi]

@[simp] theorem offField_commandWord (op : BitVec 4) (off : BitVec 6) (low : Half) :
    offField (commandWord op off low) = off := by
  ext i hi
  simp [offField, getLsbD_commandWord, show ¬ 22 + i < 16 by omega, show 22 + i < 28 by omega, hi]

@[simp] theorem rsvField_commandWord (op : BitVec 4) (off : BitVec 6) (low : Half) :
    rsvField (commandWord op off low) = 0 := by
  ext i hi
  simp [rsvField, getLsbD_commandWord, show 16 + i < 22 by omega]

@[simp] theorem lowField_commandWord (op : BitVec 4) (off : BitVec 6) (low : Half) :
    lowField (commandWord op off low) = low := by
  ext i hi
  simp [lowField, getLsbD_commandWord, hi]

@[simp] theorem imm8Field_commandWord (op : BitVec 4) (off : BitVec 6) (low : Half) :
    imm8Field (commandWord op off low) = low.extractLsb' 0 8 := by
  ext i hi
  simp [imm8Field, getLsbD_commandWord, show i < 16 by omega]

@[simp] theorem lowHighByte_commandWord (op : BitVec 4) (off : BitVec 6) (low : Half) :
    lowHighByte (commandWord op off low) = low.extractLsb' 8 8 := by
  ext i hi
  simp [lowHighByte, getLsbD_commandWord, show 8 + i < 16 by omega]

@[simp] theorem shiftField_commandWord (op : BitVec 4) (off : BitVec 6) (low : Half) :
    shiftField (commandWord op off low) = low.extractLsb' 12 3 := by
  ext i hi
  simp [shiftField, getLsbD_commandWord, show 12 + i < 16 by omega]

@[simp] theorem widthField_commandWord (op : BitVec 4) (off : BitVec 6) (low : Half) :
    widthField (commandWord op off low) = low.extractLsb' 8 4 := by
  ext i hi
  simp [widthField, getLsbD_commandWord, show 8 + i < 16 by omega]

@[simp] theorem applyField_commandWord (op : BitVec 4) (off : BitVec 6) (low : Half) :
    applyField (commandWord op off low) = low.getLsbD 0 := by
  rw [applyField, getLsbD_commandWord, if_pos (by omega)]

@[simp] theorem bit15_commandWord (op : BitVec 4) (off : BitVec 6) (low : Half) :
    (commandWord op off low).getLsbD 15 = low.getLsbD 15 := by
  rw [getLsbD_commandWord, if_pos (by omega)]

@[simp] theorem lowM_part_commandWord (op : BitVec 4) (off : BitVec 6) (low : Half) :
    (commandWord op off low).extractLsb' 1 15 = low.extractLsb' 1 15 := by
  ext i hi
  simp [getLsbD_commandWord, show 1 + i < 16 by omega]

/-- Every word with zero `rsv` is put together from its `op`, `off` and `low` (R61). -/
theorem commandWord_of_fields (w : Word) (h : rsvField w = 0) :
    commandWord (opField w) (offField w) (lowField w) = w := by
  apply BitVec.eq_of_getLsbD_eq
  intro n hn
  rw [getLsbD_commandWord]
  by_cases h1 : n < 16
  · simp [h1, lowField]
  · by_cases h2 : n < 22
    · have hb : (rsvField w).getLsbD (n - 16) = false := by simp [h]
      simp only [rsvField, BitVec.getLsbD_extractLsb', show n - 16 < 6 by omega, decide_true, Bool.true_and,
        show 16 + (n - 16) = n by omega] at hb
      simp [h1, h2, hb]
    · by_cases h3 : n < 28
      · simp [h1, h2, h3, offField, show n - 22 < 6 by omega, show 22 + (n - 22) = n by omega]
      · simp [h1, h2, h3, opField, show n - 28 < 4 by omega, show 28 + (n - 28) = n by omega]

/-! ### The low halves of the formats -/

@[simp] theorem lowImm8_byte (b : Byte) : (lowImm8 b).extractLsb' 0 8 = b := by
  ext i hi
  simp [lowImm8, hi, show i < 16 by omega]

@[simp] theorem lowImm8_high (b : Byte) : (lowImm8 b).extractLsb' 8 8 = 0 := by
  ext i hi
  simp [lowImm8]

/-- Which operand a bit of the low half of format F comes from (R67). -/
theorem getLsbD_lowF (width shift : Nat) (imm8 : Byte) (n : Nat) :
    (lowF width shift imm8).getLsbD n =
      if n < 8 then imm8.getLsbD n
      else if n < 12 then (BitVec.ofNat 4 width).getLsbD (n - 8)
      else (BitVec.ofNat 3 shift).getLsbD (n - 12) := by
  simp only [lowF, BitVec.getLsbD_or, BitVec.getLsbD_shiftLeft, BitVec.getLsbD_setWidth]
  by_cases h1 : n < 8
  · simp [h1, show n < 16 by omega, show n < 12 by omega]
  · have himm : imm8.getLsbD n = false := BitVec.getLsbD_of_ge imm8 n (by omega)
    by_cases h2 : n < 12
    · simp [h1, h2, himm, show n < 16 by omega, show n - 8 < 16 by omega]
    · have hw : (BitVec.ofNat 4 width).getLsbD (n - 8) = false := BitVec.getLsbD_of_ge _ _ (by omega)
      by_cases h3 : n < 16
      · simp [h1, h2, h3, himm, hw, show n - 12 < 16 by omega]
      · have hs : (BitVec.ofNat 3 shift).getLsbD (n - 12) = false := BitVec.getLsbD_of_ge _ _ (by omega)
        simp [h1, h2, h3, himm, hs]

@[simp] theorem lowF_byte (width shift : Nat) (imm8 : Byte) : (lowF width shift imm8).extractLsb' 0 8 = imm8 := by
  ext i hi
  simp [getLsbD_lowF, hi]

@[simp] theorem lowF_width (width shift : Nat) (imm8 : Byte) :
    (lowF width shift imm8).extractLsb' 8 4 = BitVec.ofNat 4 width := by
  apply BitVec.eq_of_getLsbD_eq
  intro i hi
  rw [BitVec.getLsbD_extractLsb', getLsbD_lowF]
  simp [hi, show ¬ 8 + i < 8 by omega, show 8 + i < 12 by omega]

@[simp] theorem lowF_shift (width shift : Nat) (imm8 : Byte) :
    (lowF width shift imm8).extractLsb' 12 3 = BitVec.ofNat 3 shift := by
  apply BitVec.eq_of_getLsbD_eq
  intro i hi
  rw [BitVec.getLsbD_extractLsb', getLsbD_lowF]
  simp [hi, show ¬ 12 + i < 8 by omega]

@[simp] theorem lowF_bit15 (width shift : Nat) (imm8 : Byte) : (lowF width shift imm8).getLsbD 15 = false := by
  rw [getLsbD_lowF]
  simp

@[simp] theorem lowM_bit0 (apply : Bool) : (lowM apply).getLsbD 0 = apply := by
  cases apply <;> rfl

@[simp] theorem lowM_zeros (apply : Bool) : (lowM apply).extractLsb' 1 15 = 0 := by
  cases apply <;> rfl

end Sys2Proof
end

