-- ==== Sys2Proof/Laws/Memory.lean ====
section
/-!
SUPPORT. The laws of the frame buffer: a read after a write, that every memory operation keeps the canonical form,
and that a canonical frame buffer is determined by its bytes.
-/

namespace Sys2Proof.Machine.Memory

@[simp] theorem read_zeros (off : Nat) : Memory.zeros.read off = 0x00 := rfl

@[simp] theorem read_nil (off : Nat) : Memory.read [] off = 0x00 := rfl

theorem read_cons (a : Nat) (b : Byte) (rest : Memory) (off : Nat) :
    Memory.read ((a, b) :: rest) off = if a = off then b else Memory.read rest off := rfl

theorem read_erase (m : Memory) (off a : Nat) :
    (m.erase off).read a = if a = off then Memory.unlisted else m.read a := by
  induction m with
  | nil => simp [Memory.erase, Memory.unlisted]
  | cons c rest ih =>
    obtain ⟨x, b⟩ := c
    by_cases hx : x = off
    · subst hx
      by_cases ha : a = x
      · subst ha; simpa [Memory.erase] using ih
      · simp [Memory.erase, ih, ha, read_cons, Ne.symm ha]
    · by_cases ha : x = a
      · subst ha; simp [Memory.erase, hx, read_cons]
      · simp [Memory.erase, hx, read_cons, ha, ih]

theorem read_insert (m : Memory) (off : Nat) (b : Byte) (a : Nat) (h : m.read off = Memory.unlisted)
    (hn : ∀ c ∈ m, c.1 ≠ off) :
    (Memory.insert m off b).read a = if a = off then b else m.read a := by
  induction m with
  | nil =>
    by_cases ha : a = off
    · subst ha; simp [Memory.insert, read_cons]
    · simp [Memory.insert, read_cons, ha, Ne.symm ha]
  | cons c rest ih =>
    obtain ⟨x, y⟩ := c
    have hx : x ≠ off := hn (x, y) (by simp)
    have ih := ih (by simpa [read_cons, hx] using h) (fun c hc => hn c (by simp [hc]))
    by_cases hlt : off < x
    · by_cases ha : a = off
      · subst ha; simp [Memory.insert, hlt, read_cons]
      · simp [Memory.insert, hlt, read_cons, ha, Ne.symm ha]
    · by_cases ha : x = a
      · subst ha; simp [Memory.insert, hlt, read_cons, hx]
      · simp [Memory.insert, hlt, read_cons, ha, ih]

theorem erase_ne (m : Memory) (off : Nat) : ∀ c ∈ m.erase off, c.1 ≠ off := by
  induction m with
  | nil => simp [Memory.erase]
  | cons c rest ih =>
    obtain ⟨x, b⟩ := c
    by_cases hx : x = off
    · simpa [Memory.erase, hx] using ih
    · intro c hc
      simp only [Memory.erase, hx, if_false, List.mem_cons] at hc
      rcases hc with rfl | hc
      · exact hx
      · exact ih c hc

/-- One byte changes, the one written (R42). -/
theorem read_write (m : Memory) (off : Nat) (b : Byte) (a : Nat) :
    (m.write off b).read a = if a = off then b else m.read a := by
  unfold Memory.write
  by_cases hb : b = Memory.unlisted
  · by_cases ha : a = off <;> simp [hb, read_erase, ha]
  · rw [if_neg hb, read_insert _ _ _ _ (by simp [read_erase]) (erase_ne m off), read_erase]
    by_cases ha : a = off <;> simp [ha]

@[simp] theorem read_write_same (m : Memory) (off : Nat) (b : Byte) : (m.write off b).read off = b := by
  simp [read_write]

theorem read_write_ne (m : Memory) (off : Nat) (b : Byte) {a : Nat} (h : a ≠ off) :
    (m.write off b).read a = m.read a := by
  simp [read_write, h]

theorem readSeq_two (m : Memory) (off : Nat) : m.readSeq off 2 = [m.read off, m.read (off + 1)] := rfl

theorem length_readSeq (m : Memory) (off n : Nat) : (m.readSeq off n).length = n := by
  induction n generalizing off with
  | zero => rfl
  | succ n ih => simp [Memory.readSeq, ih]

theorem writeSeq_cons (m : Memory) (off : Nat) (b : Byte) (bs : List Byte) :
    m.writeSeq off (b :: bs) = (m.write off b).writeSeq (off + 1) bs := rfl

@[simp] theorem writeSeq_nil (m : Memory) (off : Nat) : m.writeSeq off [] = m := rfl

/-- `MemWrite` changes the bytes of its range, to the bytes of the sequence, and no other (R42). -/
theorem read_writeSeq (m : Memory) (off : Nat) (bs : List Byte) (a : Nat) :
    (m.writeSeq off bs).read a =
      if off ≤ a ∧ a < off + bs.length then bs.getD (a - off) 0 else m.read a := by
  induction bs generalizing m off with
  | nil => simp [show ¬(off ≤ a ∧ a < off) by omega]
  | cons b bs ih =>
    rw [writeSeq_cons, ih, read_write]
    by_cases ha : a = off
    · subst ha
      have h1 : ¬(a + 1 ≤ a ∧ a < a + 1 + bs.length) := by omega
      have h2 : a ≤ a ∧ a < a + (b :: bs).length := by simp
      rw [if_neg h1, if_pos h2]; simp
    · by_cases hin : off + 1 ≤ a ∧ a < off + 1 + bs.length
      · have h2 : off ≤ a ∧ a < off + (b :: bs).length := by simp only [List.length_cons]; omega
        have h3 : a - off = (a - (off + 1)) + 1 := by omega
        rw [if_pos hin, if_pos h2, h3]; simp
      · have h2 : ¬(off ≤ a ∧ a < off + (b :: bs).length) := by simp only [List.length_cons]; omega
        rw [if_neg hin, if_neg h2, if_neg ha]

/-! ### The canonical form -/

theorem canonicalFrom_cons (lo a : Nat) (b : Byte) (rest : Memory) :
    Memory.canonicalFrom lo ((a, b) :: rest) = true ↔
      lo ≤ a ∧ a < 64 ∧ b ≠ Memory.unlisted ∧ Memory.canonicalFrom (a + 1) rest = true := by
  simp only [Memory.canonicalFrom, Config.frameLen, Bool.and_eq_true, decide_eq_true_eq, Bool.not_eq_true',
    decide_eq_false_iff_not, and_assoc, ne_eq]

theorem canonicalFrom_mono {lo hi : Nat} (h : lo ≤ hi) (m : Memory) (hm : Memory.canonicalFrom hi m = true) :
    Memory.canonicalFrom lo m = true := by
  cases m with
  | nil => rfl
  | cons c rest =>
    obtain ⟨a, b⟩ := c
    rw [canonicalFrom_cons] at hm ⊢
    exact ⟨by omega, hm.2⟩

theorem canonicalFrom_erase (lo : Nat) (m : Memory) (off : Nat) (hm : Memory.canonicalFrom lo m = true) :
    Memory.canonicalFrom lo (m.erase off) = true := by
  induction m generalizing lo with
  | nil => rfl
  | cons c rest ih =>
    obtain ⟨a, b⟩ := c
    rw [canonicalFrom_cons] at hm
    by_cases ha : a = off
    · simpa [Memory.erase, ha] using ih lo (canonicalFrom_mono (by omega) rest hm.2.2.2)
    · simp only [Memory.erase, ha, if_false]
      rw [canonicalFrom_cons]
      exact ⟨hm.1, hm.2.1, hm.2.2.1, ih (a + 1) hm.2.2.2⟩

theorem canonicalFrom_insert (lo : Nat) (m : Memory) (off : Nat) (b : Byte) (hm : Memory.canonicalFrom lo m = true)
    (hlo : lo ≤ off) (hoff : off < 64) (hb : b ≠ Memory.unlisted) (hn : ∀ c ∈ m, c.1 ≠ off) :
    Memory.canonicalFrom lo (Memory.insert m off b) = true := by
  induction m generalizing lo with
  | nil =>
    simp only [Memory.insert]
    rw [canonicalFrom_cons]
    exact ⟨hlo, hoff, hb, rfl⟩
  | cons c rest ih =>
    obtain ⟨a, y⟩ := c
    have ha : a ≠ off := hn (a, y) (by simp)
    rw [canonicalFrom_cons] at hm
    by_cases hlt : off < a
    · simp only [Memory.insert, hlt, if_true]
      rw [canonicalFrom_cons, canonicalFrom_cons]
      exact ⟨hlo, hoff, hb, by omega, hm.2⟩
    · simp only [Memory.insert, hlt, if_false]
      rw [canonicalFrom_cons]
      exact ⟨hm.1, hm.2.1, hm.2.2.1, ih (a + 1) hm.2.2.2 (by omega) (fun c hc => hn c (by simp [hc]))⟩

@[simp] theorem wf_zeros : Memory.zeros.wf = true := rfl

/-- A write inside the frame keeps the canonical form. -/
theorem wf_write (m : Memory) (off : Nat) (b : Byte) (hm : m.wf = true) (hoff : off < 64) :
    (m.write off b).wf = true := by
  unfold Memory.wf Memory.write at *
  by_cases hb : b = Memory.unlisted
  · simpa [hb] using canonicalFrom_erase 0 m off hm
  · simpa [hb] using
      canonicalFrom_insert 0 _ off b (canonicalFrom_erase 0 m off hm) (by omega) hoff hb (erase_ne m off)

/-- A write of a sequence inside the frame keeps the canonical form. -/
theorem wf_writeSeq (m : Memory) (off : Nat) (bs : List Byte) (hm : m.wf = true) (h : off + bs.length ≤ 64) :
    (m.writeSeq off bs).wf = true := by
  induction bs generalizing m off with
  | nil => simpa using hm
  | cons b bs ih =>
    simp only [List.length_cons] at h
    exact ih _ _ (wf_write m off b hm (by omega)) (by omega)

/-- Below its first offset a canonical frame buffer reads as unlisted. -/
theorem read_below (lo : Nat) (m : Memory) (hm : Memory.canonicalFrom lo m = true) (a : Nat) (ha : a < lo) :
    m.read a = 0x00 := by
  induction m generalizing lo with
  | nil => rfl
  | cons c rest ih =>
    obtain ⟨x, b⟩ := c
    rw [canonicalFrom_cons] at hm
    rw [read_cons, if_neg (by omega)]
    exact ih (x + 1) hm.2.2.2 (by omega)

/-- A canonical frame buffer is determined by the bytes at its 64 offsets: equal memories are equal data. -/
theorem canonicalFrom_ext (lo : Nat) (m m' : Memory) (hm : Memory.canonicalFrom lo m = true)
    (hm' : Memory.canonicalFrom lo m' = true) (h : ∀ a, a < 64 → m.read a = m'.read a) : m = m' := by
  induction m generalizing lo m' with
  | nil =>
    cases m' with
    | nil => rfl
    | cons c rest =>
      obtain ⟨a, b⟩ := c
      rw [canonicalFrom_cons] at hm'
      have hb := h a hm'.2.1
      simp only [read_cons, if_true] at hb
      exact absurd hb.symm hm'.2.2.1
  | cons c rest ih =>
    obtain ⟨a, b⟩ := c
    rw [canonicalFrom_cons] at hm
    cases m' with
    | nil =>
      have hb := h a hm.2.1
      simp only [read_cons, if_true] at hb
      exact absurd hb hm.2.2.1
    | cons c' rest' =>
      obtain ⟨a', b'⟩ := c'
      rw [canonicalFrom_cons] at hm'
      have hle : a = a' := by
        rcases Nat.lt_trichotomy a a' with hlt | heq | hgt
        · have hb := h a hm.2.1
          simp only [read_cons, if_true, if_neg (show ¬a' = a by omega)] at hb
          rw [read_below (a' + 1) rest' hm'.2.2.2 a (by omega)] at hb
          exact absurd hb hm.2.2.1
        · exact heq
        · have hb := h a' hm'.2.1
          simp only [read_cons, if_true, if_neg (show ¬a = a' by omega)] at hb
          rw [read_below (a + 1) rest hm.2.2.2 a' (by omega)] at hb
          exact absurd hb.symm hm'.2.2.1
      subst hle
      have hb : b = b' := by simpa [read_cons] using h a hm.2.1
      subst hb
      have hrest : rest = rest' := by
        refine ih (a + 1) rest' hm.2.2.2 hm'.2.2.2 (fun x hx => ?_)
        by_cases hxa : a = x
        · subst hxa
          rw [read_below (a + 1) rest hm.2.2.2 a (by omega), read_below (a + 1) rest' hm'.2.2.2 a (by omega)]
        · simpa [read_cons, hxa] using h x hx
      rw [hrest]

end Sys2Proof.Machine.Memory
end

