-- ==== Sys2Proof/Laws/State.lean ====
section
/-!
SUPPORT. One lemma per field per update of the state.
-/

namespace Sys2Proof.Machine

@[simp] theorem State.setCrc_crc (s : State) (v : Byte) : (s.setCrc v).crc = v := rfl
@[simp] theorem State.setCrc_fb (s : State) (v : Byte) : (s.setCrc v).fb = s.fb := rfl
@[simp] theorem State.setCrc_pending (s : State) (v : Byte) : (s.setCrc v).pending = s.pending := rfl
@[simp] theorem State.setCrc_outcomes (s : State) (v : Byte) : (s.setCrc v).outcomes = s.outcomes := rfl

@[simp] theorem State.setFb_crc (s : State) (m : Memory) : (s.setFb m).crc = s.crc := rfl
@[simp] theorem State.setFb_fb (s : State) (m : Memory) : (s.setFb m).fb = m := rfl
@[simp] theorem State.setFb_pending (s : State) (m : Memory) : (s.setFb m).pending = s.pending := rfl
@[simp] theorem State.setFb_outcomes (s : State) (m : Memory) : (s.setFb m).outcomes = s.outcomes := rfl

@[simp] theorem State.setPending_crc (s : State) (l : List Input) : (s.setPending l).crc = s.crc := rfl
@[simp] theorem State.setPending_fb (s : State) (l : List Input) : (s.setPending l).fb = s.fb := rfl
@[simp] theorem State.setPending_pending (s : State) (l : List Input) : (s.setPending l).pending = l := rfl
@[simp] theorem State.setPending_outcomes (s : State) (l : List Input) : (s.setPending l).outcomes = s.outcomes := rfl
@[simp] theorem State.setPending_setPending (s : State) (l l' : List Input) :
    (s.setPending l).setPending l' = s.setPending l' := rfl

@[simp] theorem State.addOutcome_crc (s : State) (o : OpOutcome) : (s.addOutcome o).crc = s.crc := rfl
@[simp] theorem State.addOutcome_fb (s : State) (o : OpOutcome) : (s.addOutcome o).fb = s.fb := rfl
@[simp] theorem State.addOutcome_pending (s : State) (o : OpOutcome) : (s.addOutcome o).pending = s.pending := rfl
@[simp] theorem State.addOutcome_outcomes (s : State) (o : OpOutcome) :
    (s.addOutcome o).outcomes = s.outcomes ++ [o] := rfl
@[simp] theorem State.lastOutcome_addOutcome (s : State) (o : OpOutcome) : (s.addOutcome o).lastOutcome = o := by
  simp [State.lastOutcome]

@[simp] theorem State.reset_crc : State.reset.crc = 0x00 := rfl
@[simp] theorem State.reset_fb : State.reset.fb = [] := rfl
@[simp] theorem State.reset_pending : State.reset.pending = [] := rfl
@[simp] theorem State.reset_outcomes : State.reset.outcomes = [] := rfl

/-- The host's list does not reach the fields of the unit, nor they it. -/
theorem State.setCrc_setPending (s : State) (v : Byte) (l : List Input) :
    (s.setPending l).setCrc v = (s.setCrc v).setPending l := rfl
theorem State.setFb_setPending (s : State) (m : Memory) (l : List Input) :
    (s.setPending l).setFb m = (s.setFb m).setPending l := rfl
theorem State.addOutcome_setPending (s : State) (o : OpOutcome) (l : List Input) :
    (s.setPending l).addOutcome o = (s.addOutcome o).setPending l := rfl

end Sys2Proof.Machine
end

