-- ==== Sys2Proof/Laws/Ops.lean ====
section
/-!
SUPPORT. One lemma per shared operation that says once everything it can answer, and one per operation's access to
the offset check.
-/

namespace Sys2Proof.Machine

@[simp] theorem respond_eq (o : OpOutcome) (s : State) : respond o s = .next (s.addOutcome o) := rfl

@[simp] theorem returnOk_eq (v : Half) (s : State) : returnOk v s = .next (s.addOutcome (.ok v)) := rfl

@[simp] theorem raise_eq (name : ErrorName) (info : ErrInfo) (s : State) :
    raise name info s = .next (s.addOutcome (.err ⟨name, info⟩)) := rfl

@[simp] theorem raiseReserved_eq (w : Word) (s : State) :
    raiseReserved w s = .next (s.addOutcome (.err ⟨.invalidParameter, .word w⟩)) := rfl

/-- Inside the frame the check passes (R48). -/
theorem checkOffset_inside {off n : Nat} (h : off + n ≤ 64) (s : State) (body : Host.Outcome State Fault Refusal) :
    checkOffset off n s body = body := by
  simp [checkOffset, Config.frameLen, h]

/-- Outside the frame the operation raises `InvalidParameter(off)` (R48). -/
theorem checkOffset_outside {off n : Nat} (h : 64 < off + n) (s : State)
    (body : Host.Outcome State Fault Refusal) :
    checkOffset off n s body = .next (s.addOutcome (.err ⟨.invalidParameter, .offset off⟩)) := by
  have h' : ¬ off + n ≤ 64 := by omega
  simp [checkOffset, Config.frameLen, h']

/-- Everything `checkOffset` can do. -/
theorem checkOffset_cases (off n : Nat) (s : State) (body : Host.Outcome State Fault Refusal) :
    (off + n ≤ 64 ∧ checkOffset off n s body = body) ∨
      (64 < off + n ∧
        checkOffset off n s body = .next (s.addOutcome (.err ⟨.invalidParameter, .offset off⟩))) := by
  by_cases h : off + n ≤ 64
  · exact .inl ⟨h, checkOffset_inside h s body⟩
  · exact .inr ⟨by omega, checkOffset_outside (by omega) s body⟩

@[simp] theorem nextInput_nil (s : State) (h : s.pending = []) : nextInput s = none := by
  simp [nextInput, h]

theorem nextInput_cons (s : State) (i : Input) (rest : List Input) (h : s.pending = i :: rest) :
    nextInput s = some (i, s.setPending rest) := by
  simp [nextInput, h]

@[simp] theorem resetUnit_eq (s : State) : resetUnit s = .next ((s.setCrc 0x00).setFb Memory.zeros) := rfl

/-- The state in which a fetch word's operation runs is the state it was put into. -/
theorem withFetchWord_next (s : State) (nbits w : Nat) :
    nextInput (s.withFetchWord nbits w) = some (.command (tableWord nbits w), s) := rfl

end Sys2Proof.Machine
end

