-- ==== Sys2Proof/Laws/Exec.lean ====
section
/-!
SUPPORT. What an operation that goes on can have done, once and for all operations: the four shapes of its effect.
-/

namespace Sys2Proof.Machine

/-- The effect of an operation that goes on in `t`: it only answered; or it wrote the accumulator; or it cleared the
frame buffer; or it stored a sequence of bytes inside the frame, at an offset it may write. -/
inductive Effect (i : Instr) (s t : State) : Prop where
  | answered (o : OpOutcome) (h : t = s.addOutcome o)
  | accumulated (c : Byte) (hi : writesCrc i = true) (h : t = (s.setCrc c).addOutcome (.ok 0))
  | cleared (hi : i = .fbClr) (h : t = (s.setFb Memory.zeros).addOutcome (.ok 0))
  | stored (off : Nat) (bs : List Byte) (hlen : off + bs.length ≤ 64)
      (hi : ∀ a, off ≤ a → a < off + bs.length → mayWrite i a = true)
      (h : t = (s.setFb (s.fb.writeSeq off bs)).addOutcome (.ok 0))

/-- A checked access: refused outside the frame, else its body. -/
theorem Effect.of_checkOffset {i : Instr} {s t : State} {off n : Nat} {body : Host.Outcome State Fault Refusal}
    (hbody : off + n ≤ 64 → body = .next t → Effect i s t) (h : checkOffset off n s body = .next t) :
    Effect i s t := by
  rcases checkOffset_cases off n s body with ⟨hin, he⟩ | ⟨-, he⟩ <;> rw [he] at h
  · exact hbody hin h
  · exact .answered _ (Host.Outcome.next.inj h).symm

/-- A returned answer with no effect. -/
theorem Effect.of_next {i : Instr} {s t : State} {o : OpOutcome} (h : Host.Outcome.next (s.addOutcome o) =
    (Host.Outcome.next t : Host.Outcome State Fault Refusal)) : Effect i s t :=
  .answered o (Host.Outcome.next.inj h).symm

/-- One byte stored. -/
theorem Effect.of_write {i : Instr} {s t : State} {off : Nat} {b : Byte} (hoff : off + 1 ≤ 64)
    (hi : mayWrite i off = true)
    (h : Host.Outcome.next ((s.setFb (s.fb.write off b)).addOutcome (.ok 0)) =
      (Host.Outcome.next t : Host.Outcome State Fault Refusal)) : Effect i s t := by
  refine .stored off [b] hoff (fun a h1 h2 => ?_) (Host.Outcome.next.inj h).symm
  have : a = off := by simp only [List.length_singleton] at h2; omega
  exact this ▸ hi

/-- Everything an operation that goes on can have done. -/
theorem exec_effect {i : Instr} {s t : State} (h : exec i s = .next t) : Effect i s t := by
  cases i with
  | crcInit => exact .accumulated _ rfl (Host.Outcome.next.inj h).symm
  | crcFeed b => exact .accumulated _ rfl (Host.Outcome.next.inj h).symm
  | crcRead => exact .of_next h
  | pecCheck r =>
    simp only [exec, execPecCheck] at h
    split at h <;> exact .of_next h
  | curGet off => exact .of_checkOffset (fun _ hb => .of_next hb) h
  | curPut off mA =>
    refine .of_checkOffset (fun hin hb => ?_) h
    split at hb
    · exact .of_next hb
    · split at hb
      · exact .of_next hb
      · exact .of_write hin (by simp [mayWrite]) hb
  | fbClr => exact .cleared rfl (Host.Outcome.next.inj h).symm
  | fbWr off b => exact .of_checkOffset (fun hin hb => .of_write hin (by simp [mayWrite]) hb) h
  | fbRd off => exact .of_checkOffset (fun _ hb => .of_next hb) h
  | bfGet off width shift => exact .of_checkOffset (fun _ hb => .of_next hb) h
  | bfPut off width shift value =>
    refine .of_checkOffset (fun hin hb => ?_) h
    split at hb
    · exact .of_next hb
    · split at hb
      · exact .of_next hb
      · exact .of_write hin (by simp [mayWrite]) hb
  | bfMark off apply =>
    refine .of_checkOffset (fun hin hb => ?_) h
    split at hb
    · exact .of_next hb
    · exact .of_write hin (by simp [mayWrite]) hb
  | le16Get off => exact .of_checkOffset (fun _ hb => .of_next hb) h
  | le16Put off v =>
    refine .of_checkOffset (fun hin hb => ?_) h
    refine .stored off (le16enc v) hin (fun a h1 h2 => ?_) (Host.Outcome.next.inj hb).symm
    simp only [le16enc, List.length_cons, List.length_nil] at h2
    have : a = off ∨ a = off + 1 := by omega
    simpa [mayWrite] using this

end Sys2Proof.Machine
end

