-- ==== Sys2Proof/Laws/Outcome.lean ====
section
/-!
SUPPORT. The exit codes under any allowed `ERRNO` (R181).
-/

namespace Sys2Proof.Machine

/-- The exit code is 0 exactly for success. -/
theorem exitCode_eq_zero {errno : ErrorName → Int} (h : ErrnoAllowed errno) (o : OpOutcome) :
    o.exitCode errno = 0 ↔ o.isErr = false := by
  cases o with
  | ok v => simp [OpOutcome.exitCode, OpOutcome.isErr]
  | err e =>
    have := h.1 e.name
    simp only [OpOutcome.exitCode, OpOutcome.isErr, Bool.true_eq_false, iff_false]
    omega

/-- The exit codes of two errors are equal exactly where their names are. -/
theorem exitCode_err_inj {errno : ErrorName → Int} (h : ErrnoAllowed errno) (e e' : OpError) :
    (OpOutcome.err e).exitCode errno = (OpOutcome.err e').exitCode errno ↔ e.name = e'.name :=
  h.2.eq_iff

/-- Some numbers are allowed. -/
theorem errnoAllowed_exists : ∃ errno : ErrorName → Int, ErrnoAllowed errno := by
  refine ⟨fun n => -(n.ctorIdx : Int) - 1, fun n => by show -(n.ctorIdx : Int) - 1 < 0; omega, fun m n h => ?_⟩
  cases m <;> cases n <;> simp_all [ErrorName.ctorIdx]

end Sys2Proof.Machine
end

