-- ==== Sys2Proof/Laws/PerInstr.lean ====
section
/-!
SUPPORT. The statements made for every operation: what the encoder puts into the fields that every format has.
-/

namespace Sys2Proof.Laws.CommonFields

/-- The reserved field of the operation's word is zero, and its `op` is none of the two reserved codes (R61, R70). -/
def Statement (i : Instr) : Prop :=
  rsvField (encode i) = 0 ∧ opField (encode i) ≠ 0x0 ∧ opField (encode i) ≠ 0x7

theorem crcInit : Statement .crcInit := by simp [Statement, encode]
theorem crcFeed (b : Byte) : Statement (.crcFeed b) := by simp [Statement, encode]
theorem crcRead : Statement .crcRead := by simp [Statement, encode]
theorem pecCheck (r : Byte) : Statement (.pecCheck r) := by simp [Statement, encode]
theorem curGet (off : Nat) : Statement (.curGet off) := by simp [Statement, encode]
theorem curPut (off : Nat) (mA : Half) : Statement (.curPut off mA) := by simp [Statement, encode]
theorem fbClr : Statement .fbClr := by simp [Statement, encode]
theorem fbWr (off : Nat) (b : Byte) : Statement (.fbWr off b) := by simp [Statement, encode]
theorem fbRd (off : Nat) : Statement (.fbRd off) := by simp [Statement, encode]
theorem bfGet (off width shift : Nat) : Statement (.bfGet off width shift) := by simp [Statement, encode]
theorem bfPut (off width shift : Nat) (value : Byte) : Statement (.bfPut off width shift value) := by
  simp [Statement, encode]
theorem bfMark (off : Nat) (apply : Bool) : Statement (.bfMark off apply) := by simp [Statement, encode]
theorem le16Get (off : Nat) : Statement (.le16Get off) := by simp [Statement, encode]
theorem le16Put (off : Nat) (v : Half) : Statement (.le16Put off v) := by simp [Statement, encode]

end Sys2Proof.Laws.CommonFields
end

