-- ==== Sys2Proof/Laws/Settings.lean ====
section
/-!
SUPPORT. What the host-side functions over groups and records can answer, said once: a proof about an expansion cites
these lemmas and does not unfold the checks.
-/

namespace Sys2Proof.Machine

/-! ### The coding of the interrupt mode -/

/-- The number a frame carries for a mode stands for that mode, where the four numbers differ (R138). -/
theorem InterruptCoding.modeOf_code {m : InterruptCoding} (h : m.distinct = true) (x : InterruptMode) :
    m.modeOf (m.code x) = some x := by
  simp only [distinct, List.nodup_cons, List.mem_cons, List.not_mem_nil, decide_eq_true_eq, or_false, not_or] at h
  obtain ⟨⟨_, _, _⟩, ⟨_, _⟩, _, _⟩ := h
  cases x <;> simp [modeOf, code, *]

/-- A mode's number is in range (R138). -/
theorem ConfigField.inRange_code {m : InterruptCoding} (h : m.distinct = true) (x : InterruptMode) :
    ConfigField.interruptMode.inRange m (m.code x) = true := by
  simp [ConfigField.inRange, InterruptCoding.modeOf_code h]

/-! ### Field groups -/

/-- Sharing no bit goes both ways. -/
theorem GroupField.disjoint_comm (f g : GroupField) : f.disjoint g = g.disjoint f := by
  rw [Bool.eq_iff_iff]
  simp only [disjoint, Bool.or_eq_true, decide_eq_true_eq]
  omega

/-- No field shares a bit with a later one exactly where `firstOverlap` finds none. -/
theorem firstOverlap_eq_none {fs : List GroupField} :
    firstOverlap fs = none ↔ fs.Pairwise fun f g => f.disjoint g = true := by
  induction fs with
  | nil => simp [firstOverlap]
  | cons f fs ih =>
    simp only [firstOverlap, List.pairwise_cons, List.all_eq_true]
    split
    next h => simp only [ih]; exact ⟨fun h' => ⟨h, h'⟩, fun h' => h'.2⟩
    next h => exact ⟨nofun, fun h' => absurd h'.1 h⟩

/-- What the host's checks of the fields of one byte let pass (R153). -/
theorem fieldsCheck_eq_none {bits : Nat} {modes : InterruptCoding} {fs : List GroupField} :
    fieldsCheck bits modes fs = none ↔
      (∀ f ∈ fs, f.width + f.shift ≤ bits ∧ f.value < 2 ^ f.width ∧ f.field.inRange modes f.value = true) ∧
        fs.Pairwise fun f g => f.disjoint g = true := by
  rw [← firstOverlap_eq_none]
  have passes {p : GroupField → Bool} : fs.find? (fun f => !p f) = none ↔ ∀ f ∈ fs, p f = true := by
    simp [List.find?_eq_none]
  have below := passes (p := GroupField.within bits)
  have fits := passes (p := GroupField.valueFits modes)
  simp only [GroupField.within, GroupField.valueFits, Bool.and_eq_true, decide_eq_true_eq] at below fits
  unfold fieldsCheck
  split
  next f hf => exact ⟨nofun, fun h => nomatch hf.symm.trans (below.2 fun f m => (h.1 f m).1)⟩
  next hb =>
    split
    next f hf => exact ⟨nofun, fun h => nomatch hf.symm.trans (fits.2 fun f m => (h.1 f m).2)⟩
    next hv =>
      split
      next f hf => exact ⟨nofun, fun h => nomatch hf.symm.trans h.2⟩
      next ho => exact ⟨fun _ => ⟨fun f m => ⟨below.1 hb f m, fits.1 hv f m⟩, ho⟩, fun _ => rfl⟩

/-- What the host's checks of `GRP.ENC` let pass (R153). -/
theorem grpCheck_eq_none {modes : InterruptCoding} {fs : List GroupField} :
    grpCheck modes fs = none ↔
      (∀ f ∈ fs, f.width + f.shift ≤ 7 ∧ f.value < 2 ^ f.width ∧ f.field.inRange modes f.value = true) ∧
        fs.Pairwise fun f g => f.disjoint g = true :=
  fieldsCheck_eq_none

/-- Fields go into a byte without a marker exactly where the checks pass. -/
theorem putFields_eq_ok {modes : InterruptCoding} {off : Nat} {fs : List GroupField} {ops : List Instr} :
    putFields modes off fs = .ok ops ↔
      fieldsCheck 8 modes fs = none ∧ ops = fs.map (GroupField.putOp off) := by
  unfold putFields
  cases fieldsCheck 8 modes fs <;> simp [eq_comm]

/-- `GRP.ENC` expands exactly where the checks pass (R153). -/
theorem grpEnc_eq_ok {modes : InterruptCoding} {off : Nat} {apply : Bool} {fs : List GroupField} {ops : List Instr} :
    grpEnc modes off apply fs = .ok ops ↔ grpCheck modes fs = none ∧ ops = grpOps off apply fs := by
  unfold grpEnc
  cases grpCheck modes fs <;> simp [eq_comm]

/-- Expansions one after the other, none refused. -/
@[simp] theorem concatOps_map_ok (parts : List (List Instr)) : concatOps (parts.map .ok) = .ok parts.flatten := by
  induction parts with
  | nil => rfl
  | cons p ps ih => simp [concatOps, ih]

/-- A first expansion before others. -/
theorem concatOps_cons_eq_ok {x : Except OpError (List Instr)} {xs : List (Except OpError (List Instr))}
    {ops : List Instr} :
    concatOps (x :: xs) = .ok ops ↔
      ∃ first rest, x = .ok first ∧ concatOps xs = .ok rest ∧ ops = first ++ rest := by
  cases x with
  | error e => exact ⟨nofun, fun ⟨_, _, h, _⟩ => nomatch h⟩
  | ok first =>
    rw [concatOps]
    cases concatOps xs with
    | error e => exact ⟨nofun, fun ⟨_, _, _, h, _⟩ => nomatch h⟩
    | ok rest =>
      exact ⟨fun h => ⟨first, rest, rfl, rfl, (Except.ok.inj h).symm⟩,
        fun ⟨_, _, hf, hr, ho⟩ => by rw [ho, Except.ok.inj hf, Except.ok.inj hr]⟩

/-- Several expansions go through exactly where none is refused, and are then their concatenation. -/
theorem concatOps_eq_ok {l : List (Except OpError (List Instr))} {ops : List Instr} :
    concatOps l = .ok ops ↔ ∃ parts : List (List Instr), l = parts.map .ok ∧ ops = parts.flatten := by
  constructor
  · intro h
    induction l generalizing ops with
    | nil => exact ⟨[], rfl, (Except.ok.inj h).symm⟩
    | cons x xs ih =>
      obtain ⟨first, rest, rfl, hr, rfl⟩ := concatOps_cons_eq_ok.1 h
      obtain ⟨parts, rfl, rfl⟩ := ih hr
      exact ⟨first :: parts, rfl, rfl⟩
  · rintro ⟨parts, rfl, rfl⟩
    exact concatOps_map_ok parts

/-! ### Frames -/

/-- A record is encoded exactly where the host's checks pass, into the expansion that names every field its frame kind
carries (R139). -/
theorem encodeRecord_eq_ok {k : FrameKind} {l : FrameLayout} {c : ChipSettings} {ops : List Instr} :
    encodeRecord k l c = .ok ops ↔
      settingsCheck k l c = none ∧
        ops = startFrame l ++ (k.fields.map (fun f => putOp f (l.place f) (c.value l.modes f)) ++
          pinBlockOps l.pinBase c.gpPins) := by
  unfold encodeRecord
  cases settingsCheck k l c <;> simp [eq_comm]

/-- `PIN.PUT` expands exactly where the three values are in range (R151). -/
theorem pinPut_eq_ok {off : Nat} {p : PinTriple} {ops : List Instr} :
    pinPut off p = .ok ops ↔ p.outOfRange = none ∧ ops = pinPutOps off p := by
  unfold pinPut
  cases p.outOfRange <;> simp [eq_comm]

/-- A byte of an SRAM write with a pin triple: the triple, the fields, and the marker last (R217). -/
theorem byteUpdate_eq_ok_of_pin {l : Layout} {u : SramUpdate} {off : Nat} {p : PinTriple} {ops : List Instr}
    (h : pinAt l u off = some p) :
    byteUpdate l u off = .ok ops ↔
      p.outOfRange = none ∧ fieldsCheck 8 l.sramWrite.modes (byteFields l u off) = none ∧
        ops = pinPutOps off p ++ ((byteFields l u off).map (GroupField.putOp off) ++
          if marksByte l u off then [.bfMark off true] else []) := by
  simp only [byteUpdate, h, concatOps_cons_eq_ok, pinPut_eq_ok, putFields_eq_ok]
  constructor
  · rintro ⟨_, _, ⟨hp, rfl⟩, ⟨_, _, ⟨hf, rfl⟩, ⟨_, _, ⟨⟩, ⟨⟩, rfl⟩, rfl⟩, rfl⟩
    exact ⟨hp, hf, by rw [List.append_nil]⟩
  · rintro ⟨hp, hf, rfl⟩
    exact ⟨_, _, ⟨hp, rfl⟩, ⟨_, _, ⟨hf, rfl⟩, ⟨_, [], rfl, rfl, rfl⟩, rfl⟩, by rw [List.append_nil]⟩

/-- The three forms of a byte of an SRAM write without a pin triple (R153, R156). -/
theorem byteUpdate_eq_ok {l : Layout} {u : SramUpdate} {off : Nat} {ops : List Instr} (h : pinAt l u off = none) :
    byteUpdate l u off = .ok ops ↔
      (marksByte l u off = true ∧ grpCheck l.sramWrite.modes (byteFields l u off) = none ∧
        ops = grpOps off true (byteFields l u off)) ∨
      (marksByte l u off = false ∧ byteFields l u off = [] ∧ ops = grpOps off false []) ∨
      (marksByte l u off = false ∧ byteFields l u off ≠ [] ∧
        fieldsCheck 8 l.sramWrite.modes (byteFields l u off) = none ∧
        ops = (byteFields l u off).map (GroupField.putOp off)) := by
  unfold byteUpdate
  simp only [h]
  cases marksByte l u off
  · by_cases h : byteFields l u off = []
    · have nothing : grpCheck l.sramWrite.modes [] = none := rfl
      simp [h, grpEnc_eq_ok, nothing]
    · simp [h, putFields_eq_ok]
  · simp [grpEnc_eq_ok]

/-- An SRAM write is a new frame and the expansions of its bytes (R139). -/
theorem sramWrite_eq_ok {l : Layout} {u : SramUpdate} {ops : List Instr} :
    sramWrite l u = .ok ops ↔
      ∃ parts : List (List Instr), l.groupBytes.map (byteUpdate l u) = parts.map .ok ∧
        ops = startFrame l.sramWrite ++ parts.flatten := by
  rw [sramWrite, concatOps_cons_eq_ok]
  constructor
  · rintro ⟨_, _, ⟨⟩, hr, rfl⟩
    obtain ⟨parts, hp, rfl⟩ := concatOps_eq_ok.1 hr
    exact ⟨parts, hp, rfl⟩
  · rintro ⟨parts, hp, rfl⟩
    exact ⟨_, _, rfl, concatOps_eq_ok.2 ⟨parts, hp, rfl⟩, rfl⟩

/-- The bytes of an SRAM write are distinct. -/
theorem Layout.groupBytes_nodup (l : Layout) : l.groupBytes.Nodup := List.nodup_dedup _

/-- A byte is marked exactly where a requested group has its marker there (R139). -/
theorem marksByte_eq_true {l : Layout} {u : SramUpdate} {off : Nat} :
    marksByte l u off = true ↔ ∃ g ∈ allGroups, u.requests g = true ∧ off ∈ l.markerBytes g := by
  simp [marksByte]

/-- An unchanged group gives no value (R156). -/
theorem SramUpdate.values_of_unchanged {modes : InterruptCoding} {u : SramUpdate} {g : FieldGroup}
    (h : u.requests g = false) : u.values modes g = [] := by
  cases g <;> simp only [requests] at h <;> simp only [values] <;> split <;> simp_all [Update.isSet]

/-- Where nothing is requested no byte is marked (R155, R156). -/
@[simp] theorem marksByte_none (l : Layout) (off : Nat) : marksByte l SramUpdate.none off = false := by
  rw [Bool.eq_false_iff]
  intro h
  obtain ⟨g, _, hg, _⟩ := marksByte_eq_true.1 h
  cases g <;> exact absurd hg nofun

/-- A requested group gives a value to each of its fields, in their order (R139). -/
theorem SramUpdate.values_fields {modes : InterruptCoding} {u : SramUpdate} {g : FieldGroup}
    (h : u.requests g = true) : (u.values modes g).map Prod.fst = g.fields := by
  cases g <;> simp only [requests] at h <;> simp only [values] <;>
    first | rfl | (split <;> simp_all [Update.isSet, FieldGroup.fields])

/-- A record's update gives the record's values (R154). -/
theorem SramUpdate.values_ofRecord (modes : InterruptCoding) (c : ChipSettings) (g : FieldGroup) :
    (SramUpdate.ofRecord c).values modes g = g.fields.map fun f => (f, c.value modes f) := by
  cases g <;> rfl

/-- A field of a byte is a field of one of the six groups, at its place of the layout (R152). -/
theorem mem_byteFields {l : Layout} {u : SramUpdate} {off : Nat} {f : GroupField} :
    f ∈ byteFields l u off ↔
      ∃ g ∈ byteGroups, (f.field, f.value) ∈ u.values l.sramWrite.modes g ∧
        l.sramWrite.place f.field = ⟨off, f.width, f.shift⟩ := by
  simp only [byteFields, List.mem_map, List.mem_filter, List.mem_flatMap, beq_iff_eq]
  constructor
  · rintro ⟨x, ⟨⟨g, hg, hx⟩, rfl⟩, rfl⟩
    exact ⟨g, hg, hx, rfl⟩
  · rintro ⟨g, hg, hx, hp⟩
    exact ⟨(f.field, f.value), ⟨⟨g, hg, hx⟩, by rw [hp]⟩, by rw [hp]⟩

end Sys2Proof.Machine
end

