-- ==== Sys2Proof/Tests/Slice0.lean ====
section
/-!
SUPPORT. The model's own tests. The expected values are the spec's: 95_test_vectors.md (parts A, B, C) and the worked
examples of the operation rules. At the end a witness for the hypotheses of each statement that has any.
-/

namespace Sys2Proof.Tests

open Sys2Proof.Machine

/-! ### What a test looks at -/

/-- A small state: an accumulator and some bytes of the frame buffer. -/
def unit (crc : Byte) (cells : List (Nat × Byte)) : State :=
  { State.reset with crc := crc, fb := cells.foldl (fun m c => m.write c.1 c.2) [] }

/-- The state after one operation; `s` where it does not go on. -/
def after (i : Instr) (s : State) : State := stateAfter s (exec i s)

/-- The outcome of one operation. -/
def answer (i : Instr) (s : State) : OpOutcome := (after i s).lastOutcome

/-- A byte of the frame buffer after one operation. -/
def byteAfter (i : Instr) (s : State) (off : Nat) : Byte := (after i s).fb.read off

/-- The state after one step that issues a command word. -/
def afterWord (w : Nat) (s : State) : State := stateAfter s (step (s.withFetchWord 32 w))

/-! ### WellFormed refuses an ill-formed term for each check -/

theorem test_wf_offset : (Instr.fbRd 64).wf = false := by decide
theorem test_wf_width : (Instr.bfGet 5 16 0).wf = false := by decide
theorem test_wf_shift : (Instr.bfPut 5 1 8 0).wf = false := by decide
theorem test_wf_bounds : (Instr.bfPut 63 15 7 0xFF).wf = true := by decide
theorem test_wf_offset_each :
    [Instr.curGet 64, .curPut 64 0, .fbWr 64 0, .bfGet 64 0 0, .bfPut 64 0 0 0, .bfMark 64 true, .le16Get 64,
      .le16Put 64 0].all (fun i => !i.wf) = true := by decide

/-! ### Decoding: words written out from R63 to R70 -/

theorem test_decode_crcInit : decode 0b0001_0000_0000_0000_0000_0000_0000_0000 = .ok .crcInit := by decide
theorem test_decode_crcFeed : decode 0b0010_0000_0000_0000_0000_0000_0100_1100 = .ok (.crcFeed 0x4C) := by decide
theorem test_decode_crcRead : decode 0b0011_0000_0000_0000_0000_0000_0000_0000 = .ok .crcRead := by decide
theorem test_decode_pecCheck : decode 0b0100_0000_0000_0000_0000_0000_1011_0010 = .ok (.pecCheck 0xB2) := by decide
theorem test_decode_curGet : decode 0b0101_010100_000000_0000_0000_0000_0000 = .ok (.curGet 20) := by decide
theorem test_decode_curPut : decode 0b0110_010100_000000_0000_0000_0110_0100 = .ok (.curPut 20 100) := by decide
theorem test_decode_fbClr : decode 0b1000_0000_0000_0000_0000_0000_0000_0000 = .ok .fbClr := by decide
theorem test_decode_fbWr : decode 0b1001_000101_000000_0000_0000_0111_0100 = .ok (.fbWr 5 0x74) := by decide
theorem test_decode_fbRd : decode 0b1010_000101_000000_0000_0000_0000_0000 = .ok (.fbRd 5) := by decide
theorem test_decode_bfGet : decode 0b1011_000101_000000_0_010_0011_0000_0000 = .ok (.bfGet 5 3 2) := by decide
theorem test_decode_bfPut : decode 0b1100_000111_000000_0_100_0001_0000_0001 = .ok (.bfPut 7 1 4 1) := by decide
theorem test_decode_bfMark : decode 0b1101_000111_000000_0000_0000_0000_0001 = .ok (.bfMark 7 true) := by decide
theorem test_decode_le16Get : decode 0b1110_001011_000000_0000_0000_0000_0000 = .ok (.le16Get 11) := by decide
theorem test_decode_le16Put : decode 0b1111_001010_000000_0001_0010_0011_0100 = .ok (.le16Put 10 0x1234) := by decide

/-- The reserved words of B10. -/
theorem test_decode_reserved :
    decode 0x00000000 = .error .reservedOpcode ∧ decode 0x70000000 = .error .reservedOpcode ∧
    [0xFFFFFFFF, 0x10000001, 0x20000100, 0x20400000, 0xB1400301, 0xC1C08304, 0xD1C00002, 0xA1410000].all
      (fun w => decide (decode w = .error .mustBeZeroBitSet)) = true := by decide

/-- A word whose operand the operation refuses still decodes (R73, B10). -/
theorem test_decode_illegal_operand : decode 0xFFC0FFFF = .ok (.le16Put 63 0xFFFF) := by decide

/-- No two rows of the opcode map share a word. -/
theorem test_rows_disjoint :
    opcodeRows.Pairwise (fun r r' => r.pattern &&& (r.mask &&& r'.mask) ≠ r'.pattern &&& (r.mask &&& r'.mask)) := by
  decide

theorem test_table_word : decodeTableWord 32 0xB1402200 = some (.bfGet 5 2 2) := by decide

/-! ### The CRC engine (B3, B4, B6) -/

theorem test_upd_intermediate : upd 0xE3 0x10 = 0xD7 ∧ upd 0xCF 0xDE = 0x77 ∧ upd 0x5D 0x5D = 0x00 := by decide
theorem test_crc8_123456789 : crc8 [0x31, 0x32, 0x33, 0x34, 0x35, 0x36, 0x37, 0x38, 0x39] = 0xF4 := by decide
theorem test_crc8_write : crc8 [0x4C, 0, 1, 2, 3, 4, 5, 6, 7, 8, 9, 10, 11] = 0x5D := by decide
/-- A collision (R112). -/
theorem test_crc8_collision : crc8 [0x01, 0x07] = crc8 [] := by decide
theorem test_crcInit : (after .crcInit (unit 0xE3 [])).crc = 0x00 := by decide
theorem test_crcFeed : (after (.crcFeed 0x4C) (unit 0x00 [])).crc = 0xE3 := by decide
theorem test_crcFeed_answer : answer (.crcFeed 0x4C) (unit 0x00 []) = .ok 0 := by decide
theorem test_crcRead : answer .crcRead (unit 0x5D []) = .ok 0x005D := by decide
theorem test_pecCheck_match : answer (.pecCheck 0xB2) (unit 0xB2 []) = .ok 0x00B2 := by decide
theorem test_pecCheck_mismatch :
    answer (.pecCheck 0xB3) (unit 0xB2 []) = .err ⟨.pecMismatch, .pec 0xB2 0xB3⟩ ∧
    (after (.pecCheck 0xB3) (unit 0xB2 [])).crc = 0xB2 := by decide

/-! ### The frame buffer and the codec (B7, B8, B9) -/

theorem test_fbClr : (after .fbClr (unit 0xE3 [(0, 1), (63, 2)])).fb = [] := by decide
theorem test_fbWr_last : byteAfter (.fbWr 63 0x74) (unit 0 [(63, 0xFF)]) 63 = 0x74 := by decide
/-- A zero byte is not listed: equal frame buffers are equal data. -/
theorem test_fbWr_zero : (after (.fbWr 7 0x00) (unit 0 [(7, 0x14), (3, 1)])).fb = [(3, 1)] := by decide
theorem test_fbRd : answer (.fbRd 5) (unit 0 [(5, 0x74)]) = .ok 0x0074 := by decide
theorem test_bfGet_examples :
    answer (.bfGet 5 3 0) (unit 0 [(5, 0x74)]) = .ok 4 ∧ answer (.bfGet 5 2 2) (unit 0 [(5, 0x74)]) = .ok 1 := by decide
theorem test_bfGet_corners :
    answer (.bfGet 5 0 0) (unit 0 [(5, 0x74)]) = .ok 0 ∧ answer (.bfGet 5 15 0) (unit 0 [(5, 0x74)]) = .ok 116 ∧
    answer (.bfGet 5 4 6) (unit 0 [(5, 0x74)]) = .ok 1 := by decide
theorem test_bfPut_ors :
    byteAfter (.bfPut 7 3 0 3) (unit 0 [(7, 0x14)]) 7 = 0x17 ∧ byteAfter (.bfPut 7 2 5 3) (unit 0 [(7, 0x14)]) 7 = 0x74 ∧
    byteAfter (.bfPut 7 8 0 255) (unit 0 []) 7 = 0xFF := by decide
theorem test_bfPut_refuses :
    answer (.bfPut 7 3 6 1) (unit 0 [(7, 0x14)]) = .err ⟨.invalidParameter, .field 3 6⟩ ∧
    answer (.bfPut 7 3 0 8) (unit 0 [(7, 0x14)]) = .err ⟨.invalidParameter, .value 8⟩ ∧
    answer (.bfPut 7 0 0 1) (unit 0 [(7, 0x14)]) = .err ⟨.invalidParameter, .value 1⟩ := by decide
theorem test_bfMark :
    byteAfter (.bfMark 7 true) (unit 0 [(7, 0x14)]) 7 = 0x94 ∧ byteAfter (.bfMark 7 true) (unit 0 []) 7 = 0x80 ∧
    byteAfter (.bfMark 7 false) (unit 0 [(7, 0x94)]) 7 = 0x00 := by decide
theorem test_bfMark_twice :
    answer (.bfMark 7 true) (unit 0 [(7, 0x94)]) = .err ⟨.invalidParameter, .offset 7⟩ ∧
    byteAfter (.bfMark 7 true) (unit 0 [(7, 0x94)]) 7 = 0x94 := by decide
theorem test_le16Get_odd : answer (.le16Get 11) (unit 0 [(10, 0x34), (11, 0x12), (12, 0x32)]) = .ok 0x3212 := by decide
theorem test_le16Get_63 : answer (.le16Get 63) (unit 0 []) = .err ⟨.invalidParameter, .offset 63⟩ := by decide
theorem test_le16Put_last : (after (.le16Put 62 0xBEEF) (unit 0 [])).fb = [(62, 0xEF), (63, 0xBE)] := by decide
theorem test_le16Put_63 :
    answer (.le16Put 63 0xFFFF) (unit 0 [(63, 1)]) = .err ⟨.invalidParameter, .offset 63⟩ ∧
    byteAfter (.le16Put 63 0xFFFF) (unit 0 [(63, 1)]) 63 = 1 := by decide
theorem test_curGet : answer (.curGet 20) (unit 0 [(20, 0xFF)]) = .ok 510 := by decide
theorem test_curPut : byteAfter (.curPut 20 510) (unit 0 []) 20 = 0xFF := by decide
theorem test_curPut_refuses :
    answer (.curPut 20 101) (unit 0 []) = .err ⟨.invalidParameter, .value 101⟩ ∧
    answer (.curPut 20 511) (unit 0 []) = .err ⟨.invalidParameter, .value 511⟩ ∧
    answer (.curPut 20 512) (unit 0 []) = .err ⟨.invalidParameter, .value 512⟩ := by decide

/-! ### One step -/

theorem test_step_word : (afterWord 0x2000004C State.reset).crc = 0xE3 := by decide
/-- A reserved word raises and changes nothing (C4, operation 14). -/
theorem test_step_reserved :
    afterWord 0x00000000 (unit 0xE3 [(7, 0xF4)]) =
      (unit 0xE3 [(7, 0xF4)]).addOutcome (.err ⟨.invalidParameter, .word 0x00000000⟩) := by decide
theorem test_step_reset :
    (stateAfter State.reset (step ((unit 0xE3 [(7, 1)]).setPending [.reset, .operation .crcRead]))) =
      State.reset.setPending [.operation .crcRead] := by decide
theorem test_step_idle : (match step State.reset with | .refused r => decide (r = .noOperation) | _ => false) = true := by
  decide

/-! ### Pseudo-operations (C1, C2, C3, A1.4) -/

/-- An illustrative coding of the interrupt modes, as two flags (the numbers are not the chip's, N5). -/
def sampleModes : InterruptCoding := ⟨0, 1, 2, 3⟩

theorem test_pecWrgen :
    (runPecWrgen 0x26 [0, 1, 2, 3, 4, 5, 6, 7, 8, 9, 10, 11] State.reset).2 =
      .ok [0, 1, 2, 3, 4, 5, 6, 7, 8, 9, 10, 11, 0x5D] := by decide
theorem test_pecRdchk_good :
    (runPecRdchk 0x26 0x10 4 [0xDE, 0xAD, 0xBE, 0xEF, 0xB2] State.reset).2 = .ok [0xDE, 0xAD, 0xBE, 0xEF] := by decide
theorem test_pecRdchk_corrupted :
    (runPecRdchk 0x26 0x10 4 [0xDE, 0xAD, 0xBF, 0xEF, 0xB2] (unit 0xB2 [])).2 =
      .error ⟨.pecMismatch, .pec 0xA7 0xB2⟩ := by decide
theorem test_pecRdchk_65535 :
    (runPecRdchk 0x26 0x10 65535 [] State.reset).2 = .error ⟨.invalidParameter, .length 65535⟩ := by decide
theorem test_pinPut : pinPut 7 ⟨4, 0, 1⟩ = .ok [.bfPut 7 3 0 4, .bfPut 7 1 3 0, .bfPut 7 1 4 1] := by decide
theorem test_pinPut_refuses : pinPut 7 ⟨8, 0, 1⟩ = .error ⟨.invalidParameter, .value 8⟩ := by decide
theorem test_grpEnc :
    grpEnc sampleModes 3 true [⟨.dacValue, 5, 0, 17⟩] = .ok [.fbWr 3 0, .bfPut 3 5 0 17, .bfMark 3 true] := by decide
/-- "DAC value > 31" in a field that would hold it (R138). -/
theorem test_grpEnc_range : grpEnc sampleModes 3 true [⟨.dacValue, 6, 0, 32⟩] = .error ⟨.invalidParameter, .value 32⟩ := by decide
theorem test_grpEnc_overlap :
    grpEnc sampleModes 3 true [⟨.clockDutyCycle, 2, 1, 1⟩, ⟨.clockDividerExponent, 3, 0, 1⟩] =
      .error ⟨.invalidParameter, .field 2 1⟩ := by decide

/-! ### Witnesses: for each statement with hypotheses, a state and operands that meet them -/

theorem witness_DecodeOfEncodeIsIdentity : (Instr.bfPut 63 15 7 0xFF).wf = true := by decide
theorem witness_EncodeOfDecodeIsIdentity : decode 0xFFC0FFFF = .ok (.le16Put 63 0xFFFF) := by decide
theorem witness_StepRunsDecodedOperation :
    (State.reset.setPending [.command 0x2000004C, .reset]).pending = .command 0x2000004C :: [.reset] ∧
    decode 0x2000004C = .ok (.crcFeed 0x4C) ∧
    (State.reset.setPending [.operation (.fbRd 64)]).pending = .operation (.fbRd 64) :: [] := by decide
theorem witness_ReservedWordRaisesInvalidParameter :
    (State.reset.setPending [.command 0xC1C08304]).pending = .command 0xC1C08304 :: [] ∧
    ∀ r ∈ opcodeRows, 0xC1C08304 &&& r.mask ≠ r.pattern := by decide
theorem witness_ResetEventClearsUnit : ((unit 0xE3 [(7, 1)]).setPending [.reset]).pending = .reset :: [] := by decide
theorem witness_StepGoesOnUnlessNothingIsIssued :
    State.reset.pending = [] ∧ (State.reset.setPending [.reset]).pending ≠ [] := by decide
theorem witness_StepKeepsFrameBufferCanonical :
    ((unit 0 [(63, 1)]).withFetchWord 32 0x91400074).Inv ∧
    ∃ t, step ((unit 0 [(63, 1)]).withFetchWord 32 0x91400074) = .next t := ⟨rfl, _, rfl⟩
theorem witness_RunOfCommandWordsIsTheProgram :
    ∀ i ∈ [Instr.crcInit, .crcFeed 0x4C, .bfPut 63 9 0 1], i.wf = true := by decide
theorem witness_CrcInitLoadsSeed : ∃ t, exec .crcInit (unit 0xE3 []) = .next t := ⟨_, rfl⟩
theorem witness_CrcReadReturnsAccumulator : ∃ u, resetUnit (unit 0xE3 []) = .next u := ⟨_, rfl⟩
theorem witness_PecCheckMatchReturnsAccumulator : (unit 0xB2 []).crc = 0xB2 := by decide
theorem witness_PecCheckMismatchRaises : (unit 0xB2 []).crc ≠ 0xB3 := by decide
/-- The last offset, for the statements about `FB.WR`, `FB.RD`, `CUR.GET`. -/
theorem witness_FbWrStoresTheByte : (63 : Nat) ≤ 63 := by decide
theorem witness_FbRdReturnsTheByte : (63 : Nat) ≤ 63 := by decide
theorem witness_CurGetDoublesTheByte : (63 : Nat) ≤ 63 := by decide
theorem witness_BfGetReturnsTheField : (63 : Nat) ≤ 63 ∧ (15 : Nat) ≤ 15 ∧ (7 : Nat) ≤ 7 := by decide
theorem witness_BfPutOrsTheValueIn :
    (63 : Nat) ≤ 63 ∧ 1 + 7 ≤ 8 ∧ (0x01 : Byte).toNat < 2 ^ 1 ∧ (7 : Nat) ≤ 7 := by decide
theorem witness_BfPutRefusesWhatDoesNotFit :
    (63 : Nat) ≤ 63 ∧ 8 < 2 + 7 ∧ (1 + 7 ≤ 8 ∧ 2 ^ 1 ≤ (0x02 : Byte).toNat) := by decide
theorem witness_BfMarkMarksOrBlanks : (63 : Nat) ≤ 63 ∧ ((unit 0 [(63, 0x7F)]).fb.read 63).toNat < 128 := by decide
theorem witness_BfMarkRefusesSecondMark : (63 : Nat) ≤ 63 ∧ 128 ≤ ((unit 0 [(63, 0x80)]).fb.read 63).toNat := by decide
theorem witness_Le16GetReturnsThePair : (62 : Nat) ≤ 62 := by decide
theorem witness_Le16PutStoresThePair : (62 : Nat) ≤ 62 := by decide
theorem witness_PairsAreLittleEndian : (62 : Nat) ≤ 62 := by decide
theorem witness_CurPutStoresHalf : (63 : Nat) ≤ 63 ∧ (510 : Half).toNat ≤ 510 ∧ (510 : Half).toNat % 2 = 0 := by decide
theorem witness_CurPutRefusesOddOrLarge :
    (63 : Nat) ≤ 63 ∧ 510 < (512 : Half).toNat ∧ (509 : Half).toNat % 2 = 1 := by decide
theorem witness_AccessOutsideFrameRaises :
    accessOf (.le16Get 63) = some (63, 2) ∧ 64 < 63 + 2 ∧ accessOf (.bfPut 64 9 0 0) = some (64, 1) ∧ 64 < 64 + 1 := by
  decide
/-- For the statements about an operation that ends in an error. -/
theorem witness_ErrorChangesNoState :
    ∃ t, exec (.le16Get 63) (unit 0xE3 [(63, 1)]) = .next t ∧
      t.outcomes = (unit 0xE3 [(63, 1)]).outcomes ++ [.err ⟨.invalidParameter, .offset 63⟩] := ⟨_, rfl, rfl⟩
theorem witness_ErrorIsNotRemembered :
    ∃ t, exec (.pecCheck 0) (unit 0xE3 [(63, 1)]) = .next t ∧
      t.outcomes = (unit 0xE3 [(63, 1)]).outcomes ++ [.err ⟨.pecMismatch, .pec 0xE3 0⟩] := ⟨_, rfl, rfl⟩
theorem witness_EffectDependsOnUnitAlone :
    (unit 0xE3 [(63, 1)]).crc = ((unit 0xE3 [(63, 1)]).setPending [.reset]).crc ∧
    (unit 0xE3 [(63, 1)]).fb = ((unit 0xE3 [(63, 1)]).setPending [.reset]).fb := by decide
theorem witness_OnlyInitAndFeedWriteAccumulator :
    Instr.fbWr 0 1 ≠ .crcInit ∧ (∀ b, Instr.fbWr 0 1 ≠ .crcFeed b) ∧ ∃ t, exec (.fbWr 0 1) (unit 0xE3 []) = .next t :=
  ⟨by decide, by decide, _, rfl⟩
theorem witness_OnlyNamedBytesChange :
    mayWrite (.le16Put 62 0xBEEF) 61 = false ∧ ∃ t, exec (.le16Put 62 0xBEEF) (unit 0 [(61, 1)]) = .next t :=
  ⟨by decide, _, rfl⟩
theorem witness_SubBlocksShareNoState :
    (∃ t, exec (.crcFeed 1) (unit 0xE3 []) = .next t) ∧ crcOperation (.crcFeed 1) = true ∧
    (∃ t, exec (.fbRd 1) (unit 0xE3 []) = .next t) ∧ crcOperation (.fbRd 1) = false := ⟨⟨_, rfl⟩, rfl, ⟨_, rfl⟩, rfl⟩
theorem witness_StepNeverRecordsForeignErrors :
    ∃ t, step ((unit 0xE3 []).withFetchWord 32 0) = .next t ∧
      t.outcomes = ((unit 0xE3 []).withFetchWord 32 0).outcomes ++ [.err ⟨.invalidParameter, .word 0⟩] := ⟨_, rfl, rfl⟩
theorem witness_MismatchOnlyFromPecCheck :
    (∃ t, exec (.pecCheck 0) (unit 0xE3 []) = .next t ∧
      t.outcomes = (unit 0xE3 []).outcomes ++ [.err ⟨.pecMismatch, .pec 0xE3 0⟩]) ∧
    ∃ t, exec (.curPut 0 511) (unit 0xE3 []) = .next t ∧
      t.outcomes = (unit 0xE3 []).outcomes ++ [.err ⟨.invalidParameter, .value 511⟩] := ⟨⟨_, rfl, rfl⟩, _, rfl, rfl⟩
theorem witness_ReadSeesLatestWrite :
    (63 : Nat) ≤ 63 ∧ (∀ i ∈ [Instr.le16Put 61 0xFFFF, .crcFeed 1], mayWrite i 63 = false) ∧
    (∀ i ∈ [Instr.le16Put 61 0xFFFF, .fbClr], writesCrc i = false) := by decide
theorem witness_FrameKeepsOrderAndLength : (List.replicate 64 (0xAA : Byte)).length = 64 := by decide
theorem witness_SeededClearedProgramIgnoresStartState :
    seedsFirst [.fbClr, .fbWr 3 1, .crcInit, .crcFeed 0x4C, .crcRead, .fbRd 3] = true ∧
    clearsFirst [.fbClr, .fbWr 3 1, .crcInit, .crcFeed 0x4C, .crcRead, .fbRd 3] = true := by decide
theorem witness_PecOfSequenceMatchesSequence :
    ∃ t, issueAll (.crcInit :: ([0x4C].map .crcFeed ++ [.crcRead])) (unit 0xB2 []) = .next t ∧
      t.lastOutcome = .ok 0x00E3 := ⟨_, rfl, by decide⟩
theorem witness_SingleBitErrorIsDetected : 1 < ([0x4C, 0x10] : List Byte).length ∧ 7 < 8 := by decide
theorem witness_PutFieldReadsBack :
    2 + 5 ≤ 8 ∧ (0x03 : Byte).toNat < 2 ^ 2 ∧ getBits 0x14 2 5 = 0 ∧ (5 + 2 ≤ 7 ∨ 7 + 1 ≤ 5) := by decide
theorem witness_PecWrgenAppendsPec : 127 ≤ 127 ∧ (List.replicate 65534 (0 : Byte)).length ≤ 65534 :=
  ⟨Nat.le_refl _, Nat.le_of_eq List.length_replicate⟩
theorem witness_PecRdchkAcceptsExactlyRightPec : 127 ≤ 127 ∧ (List.replicate 65534 (0 : Byte)).length ≤ 65534 :=
  ⟨Nat.le_refl _, Nat.le_of_eq List.length_replicate⟩
theorem witness_PecHostChecksComeFirst :
    127 < 128 ∧ (127 ≤ 127 ∧ 65534 < (List.replicate 65535 (0 : Byte)).length) ∧ (127 ≤ 127 ∧ 65534 < 65535) ∧
    (127 ≤ 127 ∧ 65534 ≤ 65534 ∧ ([] : List Byte).length ≠ 65534 + 1) := by
  rw [List.length_replicate]; decide
theorem witness_PinTripleReadsBack :
    (63 : Nat) ≤ 63 ∧ (⟨7, 1, 1⟩ : PinTriple).designation ≤ 7 ∧ (⟨7, 1, 1⟩ : PinTriple).direction ≤ 1 ∧
    (⟨7, 1, 1⟩ : PinTriple).value ≤ 1 ∧ ((unit 0 [(63, 0xE0)]).fb.read 63).toNat % 32 = 0 := by decide
theorem witness_GrpEncEncodesTheGroup :
    (63 : Nat) ≤ 63 ∧
    (∀ f ∈ ([⟨.clockDividerExponent, 3, 0, 7⟩, ⟨.clockDutyCycle, 4, 3, 3⟩] : List GroupField),
      f.width + f.shift ≤ 7 ∧ f.value < 2 ^ f.width ∧ f.field.inRange sampleModes f.value = true) ∧
    ([⟨.clockDividerExponent, 3, 0, 7⟩, ⟨.clockDutyCycle, 4, 3, 3⟩] : List GroupField).Pairwise
      (fun f g => f.disjoint g = true) := by decide
theorem witness_AllClearFlagsGiveZeroPayload :
    ∀ g ∈ ([(63, [⟨.dacValue, 5, 0, 9⟩]), (5, [])] : List (Nat × List GroupField)),
      g.1 ≤ 63 ∧ grpCheck sampleModes g.2 = none := by decide

/-- "one of off, rising, falling, both" (R138): no other number is an interrupt mode. -/
theorem test_grpEnc_mode :
    grpEnc sampleModes 6 true [⟨.interruptMode, 3, 0, 4⟩] = .error ⟨.invalidParameter, .value 4⟩ ∧
    grpEnc sampleModes 6 true [⟨.interruptMode, 2, 0, 3⟩] = .ok [.fbWr 6 0, .bfPut 6 2 0 3, .bfMark 6 true] := by decide

/-- An illustrative layout (the numbers are not the chip's; C3 where it has the field): the interrupt mode and the flag
share byte 6. -/
def sampleLayout : FrameLayout :=
  { opcode := 0xAA
    places :=
      { accessControlState := ⟨15, 2, 0⟩, usbPowerAttributes := ⟨15, 3, 4⟩, vid := ⟨12, 16, 0⟩, pid := ⟨16, 16, 0⟩
        requestedCurrentMa := ⟨14, 8, 0⟩, clockDividerExponent := ⟨4, 3, 0⟩, clockDutyCycle := ⟨4, 2, 3⟩
        dacVoltageReference := ⟨5, 2, 0⟩, dacValue := ⟨3, 5, 0⟩, adcVoltageReference := ⟨7, 3, 0⟩
        interruptMode := ⟨6, 2, 1⟩, interruptFlag := ⟨6, 1, 0⟩ }
    pinBase := 8
    modes := sampleModes }

/-- An illustrative record. -/
def sampleSettings : ChipSettings :=
  ⟨1, 5, 0x1234, 0x0001, 100, 5, 2, 1, 17, 4, .both, 1, #v[⟨4, 0, 1⟩, ⟨0, 1, 0⟩, ⟨7, 1, 1⟩, ⟨2, 0, 0⟩]⟩

/-- The illustrative layout for all four frame kinds, each group's marker in the byte of its fields. -/
def sampleLayouts (pins : PinMarker) : Layout :=
  ⟨sampleLayout, sampleLayout, sampleLayout, sampleLayout, ⟨4, 5, 3, 7, 6, 6, pins⟩⟩

/-- The update of the frame of C3, with the interrupt mode set to zero bits: unchanged groups at bytes 5 and 7. -/
def sampleUpdate : SramUpdate :=
  { SramUpdate.none with
    clockConfig := .setTo (5, 2), dacValue := .setTo 17, interruptMode := .setTo .off
    gpPins := .setTo sampleSettings.gpPins }

/-- A field in bits 7:5 of a pin byte is no layout (R137). -/
theorem test_layout_pin_byte :
    ({ sampleLayout with places := { sampleLayout.places with dacVoltageReference := ⟨8, 2, 5⟩ } } :
      FrameLayout).allowed .flashWrite = false := by decide

/-- The frame of C3: opcode, group bytes, pin triples; and the marker of the pin block. -/
theorem test_sramByte_c3 :
    [0, 3, 4, 5, 6, 8, 9, 10, 11, 18].map (sramByte (sampleLayouts (.oneByte 18)) sampleUpdate) =
      [0xAA, 0x91, 0x95, 0x00, 0x80, 0x14, 0x08, 0x1F, 0x02, 0x80] := by decide

/-- The bytes of C3 that hold two values, nothing requested, a pin triple; and the marker of the pin block (R153,
R139). -/
theorem test_byteUpdate_c3 :
    let byteOps := byteUpdate (sampleLayouts (.oneByte 18)) sampleUpdate
    byteOps 4 = .ok [.fbWr 4 0, .bfPut 4 3 0 5, .bfPut 4 2 3 2, .bfMark 4 true] ∧
    byteOps 5 = .ok [.fbWr 5 0, .bfMark 5 false] ∧
    byteOps 8 = .ok [.bfPut 8 3 0 4, .bfPut 8 1 3 0, .bfPut 8 1 4 1] ∧
    byteOps 18 = .ok [.fbWr 18 0, .bfMark 18 true] := by decide

/-- A Flash write is the full record without markers (R139), the opcode first. -/
theorem test_flashWrite :
    flashWrite (sampleLayouts .eachPin) sampleSettings = .ok
      ([.fbClr, .fbWr 0 0xAA, .bfPut 15 2 0 1, .bfPut 15 3 4 5, .le16Put 12 0x1234, .le16Put 16 1, .curPut 14 100,
        .bfPut 4 3 0 5, .bfPut 4 2 3 2, .bfPut 5 2 0 1, .bfPut 3 5 0 17, .bfPut 7 3 0 4, .bfPut 6 2 1 3,
        .bfPut 6 1 0 1] ++
       [.bfPut 8 3 0 4, .bfPut 8 1 3 0, .bfPut 8 1 4 1, .bfPut 9 3 0 0, .bfPut 9 1 3 1, .bfPut 9 1 4 0,
        .bfPut 10 3 0 7, .bfPut 10 1 3 1, .bfPut 10 1 4 1, .bfPut 11 3 0 2, .bfPut 11 1 3 0, .bfPut 11 1 4 0]) := by
  decide

/-- The same layout with the clock's two values in two bytes (N4), the duty cycle in all the bits up to bit 7 of a byte
without a marker. -/
def splitLayouts (pins : PinMarker) : Layout :=
  { sampleLayouts pins with
    sramWrite := { sampleLayout with places := { sampleLayout.places with clockDutyCycle := ⟨20, 2, 6⟩ } } }

/-- The clock is marked in its marker byte alone, and its second value lies where the layout says. -/
theorem test_sramWrite_split :
    sramWrite (splitLayouts .eachPin) { SramUpdate.none with clockConfig := .setTo (5, 2) } = .ok
      [.fbClr, .fbWr 0 0xAA, .bfPut 20 2 6 2, .fbWr 4 0, .bfPut 4 3 0 5, .bfMark 4 true, .fbWr 5 0, .bfMark 5 false,
        .fbWr 3 0, .bfMark 3 false, .fbWr 7 0, .bfMark 7 false, .fbWr 6 0, .bfMark 6 false, .fbWr 8 0, .bfMark 8 false,
        .fbWr 9 0, .bfMark 9 false, .fbWr 10 0, .bfMark 10 false, .fbWr 11 0, .bfMark 11 false] := by decide

/-- A group whose marker lies in a pin byte, its value elsewhere: the byte is marked after its pin triple is put
(R217). -/
theorem test_sramWrite_marker_in_pin_byte :
    let l := { sampleLayouts (.oneByte 18) with markers := ⟨4, 8, 3, 7, 6, 6, .oneByte 18⟩ }
    let u := { SramUpdate.none with dacReference := .setTo 1, gpPins := .setTo sampleSettings.gpPins }
    l.allowed = true ∧
    byteUpdate l u 8 = .ok [.bfPut 8 3 0 4, .bfPut 8 1 3 0, .bfPut 8 1 4 1, .bfMark 8 true] ∧
    sramByte l u 8 = 0x94 := by decide

theorem witness_SramWriteMarksRequestedGroupsOnly :
    (splitLayouts (.oneByte 6)).allowed = true ∧ ∃ ops, sramWrite (splitLayouts (.oneByte 6)) sampleUpdate = .ok ops :=
  ⟨by decide, _, rfl⟩
theorem witness_SettingsRecordReadsBack :
    sampleLayout.allowed .flashWrite = true ∧ ∃ ops, encodeRecord .flashWrite sampleLayout sampleSettings = .ok ops :=
  ⟨by decide, _, rfl⟩
theorem witness_AppliedRecordReadsBack :
    (sampleLayouts .eachPin).allowed = true ∧
    ∃ ops, sramWrite (sampleLayouts .eachPin) (SramUpdate.ofRecord sampleSettings) = .ok ops := ⟨by decide, _, rfl⟩

end Sys2Proof.Tests
end

/-! ### Every operation has one outcome (R6) -/

namespace Sys2Proof.Machine

/-- A checked access goes on whenever its body does: what the check adds is an error, itself an outcome (R48). -/
theorem checkOffset_goes_on (off n : Nat) (s : State) {body : Host.Outcome State Fault Refusal}
    (hbody : ∃ t, body = .next t) : ∃ t, checkOffset off n s body = .next t := by
  rcases checkOffset_cases off n s body with ⟨-, hin⟩ | ⟨-, hout⟩
  · rwa [hin]
  · exact ⟨_, hout⟩

/-- A choice between two continuations goes on whenever both do. -/
theorem ite_goes_on {c : Prop} [Decidable c] {yes no : Host.Outcome State Fault Refusal}
    (hyes : ∃ t, yes = .next t) (hno : ∃ t, no = .next t) : ∃ t, (if c then yes else no) = .next t := by
  split
  · exact hyes
  · exact hno

/-- No operation faults or is refused, on any state (R187). -/
theorem exec_goes_on (i : Instr) (s : State) : ∃ t, exec i s = .next t := by
  cases i with
  | crcInit => exact ⟨_, rfl⟩
  | crcFeed b => exact ⟨_, rfl⟩
  | crcRead => exact ⟨_, rfl⟩
  | pecCheck r => exact ite_goes_on ⟨_, rfl⟩ ⟨_, rfl⟩
  | curGet off => exact checkOffset_goes_on off 1 s ⟨_, rfl⟩
  | curPut off mA => exact checkOffset_goes_on off 1 s (ite_goes_on ⟨_, rfl⟩ (ite_goes_on ⟨_, rfl⟩ ⟨_, rfl⟩))
  | fbClr => exact ⟨_, rfl⟩
  | fbWr off b => exact checkOffset_goes_on off 1 s ⟨_, rfl⟩
  | fbRd off => exact checkOffset_goes_on off 1 s ⟨_, rfl⟩
  | bfGet off width shift => exact checkOffset_goes_on off 1 s ⟨_, rfl⟩
  | bfPut off width shift value =>
    exact checkOffset_goes_on off 1 s (ite_goes_on ⟨_, rfl⟩ (ite_goes_on ⟨_, rfl⟩ ⟨_, rfl⟩))
  | bfMark off apply => exact checkOffset_goes_on off 1 s (ite_goes_on ⟨_, rfl⟩ ⟨_, rfl⟩)
  | le16Get off => exact checkOffset_goes_on off 2 s ⟨_, rfl⟩
  | le16Put off v => exact checkOffset_goes_on off 2 s ⟨_, rfl⟩

/-- Whatever the effect, one outcome is reported and the host's list of inputs stays. -/
theorem Effect.adds_one_outcome {i : Instr} {s t : State} (h : Effect i s t) :
    ∃ o, t.outcomes = s.outcomes ++ [o] ∧ t.pending = s.pending := by
  cases h with
  | answered o h => exact ⟨o, by simp [h]⟩
  | accumulated c _ h => exact ⟨.ok 0, by simp [h]⟩
  | cleared _ h => exact ⟨.ok 0, by simp [h]⟩
  | stored off bs _ _ h => exact ⟨.ok 0, by simp [h]⟩

/-- Settles O34: every operation goes on, and each shape of its effect adds one outcome. -/
theorem everyOperationHasOneOutcome : Obligations.EveryOperationHasOneOutcome := by
  intro i s
  obtain ⟨t, ht⟩ := exec_goes_on i s
  obtain ⟨o, hout, hpend⟩ := (exec_effect ht).adds_one_outcome
  exact ⟨t, o, ht, hout, hpend⟩

end Sys2Proof.Machine

/-! ### An error is not remembered (R28)

The failing operation leaves the state it found plus its outcome (`Effect.eq_addOutcome_of_err`); what the next one does
is decided by the accumulator and the frame buffer alone (`exec_alike`). -/

namespace Sys2Proof.Machine

/-- The only effect that reports an error is the bare answer (R186). -/
theorem Effect.eq_addOutcome_of_err {i : Instr} {s t : State} {e : OpError} (h : Effect i s t)
    (herr : t.outcomes = s.outcomes ++ [.err e]) : t = s.addOutcome (.err e) := by
  cases h with
  | answered o h =>
    have ho : o = .err e := by simpa [h] using herr
    rw [h, ho]
  | accumulated c _ h => simp [h] at herr
  | cleared _ h => simp [h] at herr
  | stored off bs _ _ h => simp [h] at herr

/-- The two results `x` from `s` and `y` from `s'` go on with one accumulator, one frame buffer and one more outcome,
the same on both sides. -/
def Alike (s s' : State) (x y : Host.Outcome State Fault Refusal) : Prop :=
  ∃ (c : Byte) (m : Memory) (o : OpOutcome),
    x = .next (((s.setCrc c).setFb m).addOutcome o) ∧ y = .next (((s'.setCrc c).setFb m).addOutcome o)

/-- The state with the host's two lists replaced. -/
def State.withHost (s : State) (l : List Input) (os : List OpOutcome) : State :=
  { s with pending := l, outcomes := os }

/-- Two states of one unit differ in the host's lists alone. -/
theorem State.exists_withHost {s s' : State} (hcrc : s.crc = s'.crc) (hfb : s.fb = s'.fb) :
    ∃ l os, s' = s.withHost l os :=
  ⟨s'.pending, s'.outcomes, by simp [State.withHost, hcrc, hfb]⟩

section
variable {s : State} {l : List Input} {os : List OpOutcome}

theorem Alike.responded (o : OpOutcome) :
    Alike s (s.withHost l os) (respond o s) (respond o (s.withHost l os)) :=
  ⟨s.crc, s.fb, o, rfl, rfl⟩

theorem Alike.accumulated (c : Byte) :
    Alike s (s.withHost l os) (returnOk 0 (s.setCrc c)) (returnOk 0 ((s.withHost l os).setCrc c)) :=
  ⟨c, s.fb, .ok 0, rfl, rfl⟩

theorem Alike.stored (m : Memory) :
    Alike s (s.withHost l os) (returnOk 0 (s.setFb m)) (returnOk 0 ((s.withHost l os).setFb m)) :=
  ⟨s.crc, m, .ok 0, rfl, rfl⟩

/-- One condition decides both sides. -/
theorem Alike.ite {s' : State} {p : Prop} [Decidable p] {x y x' y' : Host.Outcome State Fault Refusal}
    (hyes : Alike s s' x x') (hno : Alike s s' y y') :
    Alike s s' (if p then x else y) (if p then x' else y') := by
  split
  · exact hyes
  · exact hno

/-- The offset check (R48) looks at the operand alone. -/
theorem Alike.checkOffset (off n : Nat) {x y : Host.Outcome State Fault Refusal}
    (hbody : Alike s (s.withHost l os) x y) :
    Alike s (s.withHost l os) (checkOffset off n s x) (checkOffset off n (s.withHost l os) y) :=
  .ite hbody (.responded _)

end

/-- Two states with one accumulator and one frame buffer run every operation alike (R31, R52). -/
theorem exec_alike (i : Instr) {s s' : State} (hcrc : s.crc = s'.crc) (hfb : s.fb = s'.fb) :
    Alike s s' (exec i s) (exec i s') := by
  obtain ⟨l, os, rfl⟩ := State.exists_withHost hcrc hfb
  cases i with
  | crcInit => exact .accumulated _
  | crcFeed b => exact .accumulated _
  | crcRead => exact .responded _
  | pecCheck r => exact .ite (.responded _) (.responded _)
  | curGet off => exact .checkOffset off 1 (.responded _)
  | curPut off mA => exact .checkOffset off 1 (.ite (.responded _) (.ite (.responded _) (.stored _)))
  | fbClr => exact .stored _
  | fbWr off b => exact .checkOffset off 1 (.stored _)
  | fbRd off => exact .checkOffset off 1 (.responded _)
  | bfGet off width shift => exact .checkOffset off 1 (.responded _)
  | bfPut off width shift value =>
    exact .checkOffset off 1 (.ite (.responded _) (.ite (.responded _) (.stored _)))
  | bfMark off apply => exact .checkOffset off 1 (.ite (.responded _) (.stored _))
  | le16Get off => exact .checkOffset off 2 (.responded _)
  | le16Put off v => exact .checkOffset off 2 (.stored _)

/-- Settles O36: the failing operation leaves the accumulator and the frame buffer, so the next one runs alike with and
without it. -/
theorem errorIsNotRemembered : Obligations.ErrorIsNotRemembered := by
  intro i j s t e hi herr
  obtain rfl : t = s.addOutcome (.err e) := (exec_effect hi).eq_addOutcome_of_err herr
  obtain ⟨c, m, o, hs, ht⟩ := exec_alike j (s := s) (s' := s.addOutcome (.err e)) rfl rfl
  exact ⟨rfl, rfl, rfl, _, _, o, hs, ht, rfl, rfl, rfl, rfl⟩

end Sys2Proof.Machine

/-! ### Running programs

What the single reads and writes answer inside the frame, what an operation leaves unchanged, and how a program runs:
it goes on from every state, with one outcome per operation, and keeps what each of its operations keeps. -/

namespace Sys2Proof.Machine

/-- Inside the frame `FB.WR` stores its byte (R141). -/
theorem exec_fbWr {off : Nat} (h : off ≤ 63) (b : Byte) (s : State) :
    exec (.fbWr off b) s = .next ((s.setFb (s.fb.write off b)).addOutcome (.ok 0)) :=
  checkOffset_inside (by omega) s _

/-- Inside the frame `FB.RD` answers with the byte (R142). -/
theorem exec_fbRd {off : Nat} (h : off ≤ 63) (s : State) :
    exec (.fbRd off) s = .next (s.addOutcome (.ok (zext16 (s.fb.read off)))) :=
  checkOffset_inside (by omega) s _

/-- Inside the frame `LE16.GET` answers with the pair (R146). -/
theorem exec_le16Get {off : Nat} (h : off ≤ 62) (s : State) :
    exec (.le16Get off) s =
      .next (s.addOutcome (.ok (le16dec (s.fb.read off) (s.fb.read (off + 1))))) :=
  checkOffset_inside (by omega) s _

/-- Inside the frame `LE16.PUT` stores its two bytes (R147). -/
theorem exec_le16Put {off : Nat} (h : off ≤ 62) (v : Half) (s : State) :
    exec (.le16Put off v) s =
      .next ((s.setFb (s.fb.writeSeq off (le16enc v))).addOutcome (.ok 0)) :=
  checkOffset_inside (by omega) s _

/-- `CRC.READ` answers with the accumulator (R99). -/
theorem exec_crcRead (s : State) : exec .crcRead s = .next (s.addOutcome (.ok (zext16 s.crc))) := rfl

/-- An operation leaves every byte that it may not write (R45). -/
theorem Effect.read_eq {i : Instr} {s t : State} {a : Nat} (h : Effect i s t) (hi : mayWrite i a = false) :
    t.fb.read a = s.fb.read a := by
  cases h with
  | answered o h => simp [h]
  | accumulated c _ h => simp [h]
  | cleared hclr h => simp [hclr, mayWrite] at hi
  | stored off bs _ hmay h =>
    have hout : ¬(off ≤ a ∧ a < off + bs.length) := fun ⟨hlo, hhi⟩ => by simp [hmay a hlo hhi] at hi
    simp [h, Memory.read_writeSeq, hout]

/-- An operation that is no writer of the accumulator leaves it (R21). -/
theorem Effect.crc_eq {i : Instr} {s t : State} (h : Effect i s t) (hi : writesCrc i = false) : t.crc = s.crc := by
  cases h with
  | answered o h => simp [h]
  | accumulated c hw h => simp [hw] at hi
  | cleared _ h => simp [h]
  | stored off bs _ _ h => simp [h]

@[simp] theorem issueAll_nil (s : State) : issueAll [] s = .next s := rfl

theorem issueAll_cons {i : Instr} {s t : State} (h : exec i s = .next t) (is : List Instr) :
    issueAll (i :: is) s = issueAll is t := by
  simp [issueAll, h]

/-- A program goes on from every state, with one outcome per operation, the newest last (R50, R187, R222). -/
theorem issueAll_goes_on (ops : List Instr) (s : State) :
    ∃ (t : State) (new : List OpOutcome),
      issueAll ops s = .next t ∧ t.outcomes = s.outcomes ++ new ∧ new.length = ops.length := by
  induction ops generalizing s with
  | nil => exact ⟨s, [], rfl, by simp, rfl⟩
  | cons i is ih =>
    obtain ⟨t, ht⟩ := exec_goes_on i s
    obtain ⟨o, hout, -⟩ := (exec_effect ht).adds_one_outcome
    obtain ⟨u, new, hu, hnew, hlen⟩ := ih t
    exact ⟨u, o :: new, (issueAll_cons ht is).trans hu, by simp [hnew, hout], by simp [hlen]⟩

/-- One program after another. -/
theorem issueAll_append {ops : List Instr} {s t : State} (h : issueAll ops s = .next t) (ops' : List Instr) :
    issueAll (ops ++ ops') s = issueAll ops' t := by
  induction ops generalizing s with
  | nil =>
    obtain rfl : s = t := Host.Outcome.next.inj h
    rfl
  | cons i is ih =>
    obtain ⟨u, hu⟩ := exec_goes_on i s
    rw [List.cons_append, issueAll_cons hu]
    exact ih (issueAll_cons hu is ▸ h)

/-- What every operation of a program leaves, the program leaves. -/
theorem issueAll_keeps {α : Type} (f : State → α) {ops : List Instr} {s t : State}
    (hkeep : ∀ i ∈ ops, ∀ u v, exec i u = .next v → f v = f u) (h : issueAll ops s = .next t) : f t = f s := by
  induction ops generalizing s with
  | nil =>
    obtain rfl : s = t := Host.Outcome.next.inj h
    rfl
  | cons i is ih =>
    obtain ⟨u, hu⟩ := exec_goes_on i s
    calc f t = f u := ih (fun j hj => hkeep j (by simp [hj])) (issueAll_cons hu is ▸ h)
      _ = f s := hkeep i (by simp) s u hu

end Sys2Proof.Machine

/-! ### A 16-bit value is little-endian (R43) -/

namespace Sys2Proof.Machine

/-- The two bytes of a value make up the value again (R133, R134). -/
theorem le16dec_bytes (v : Half) : le16dec (v.extractLsb' 0 8) (v.extractLsb' 8 8) = v := by
  have hv := v.isLt
  apply BitVec.eq_of_toNat_eq
  rw [toNat_le16dec, BitVec.extractLsb'_toNat, BitVec.extractLsb'_toNat, Nat.shiftRight_eq_div_pow,
    Nat.shiftRight_eq_div_pow]
  omega

/-- The low byte of a stored value is at the lower offset (R134, R147). -/
theorem read_writeSeq_le16enc_low (m : Memory) (off : Nat) (v : Half) :
    (m.writeSeq off (le16enc v)).read off = v.extractLsb' 0 8 := by
  simp [Memory.read_writeSeq, le16enc]

/-- The high byte of a stored value is at the higher offset (R134, R147). -/
theorem read_writeSeq_le16enc_high (m : Memory) (off : Nat) (v : Half) :
    (m.writeSeq off (le16enc v)).read (off + 1) = v.extractLsb' 8 8 := by
  simp [Memory.read_writeSeq, le16enc]

/-- Settles O29: the three reads after `LE16.PUT` see the two bytes it stored. -/
theorem pairsAreLittleEndian : Obligations.PairsAreLittleEndian := by
  intro off v s hoff
  constructor
  · rw [issueAll_cons (exec_le16Put hoff v s), issueAll_cons (exec_fbRd (by omega) _),
      issueAll_cons (exec_fbRd (by omega) _), issueAll_cons (exec_le16Get hoff _), issueAll_nil]
    exact ⟨_, rfl, by simp [read_writeSeq_le16enc_low, read_writeSeq_le16enc_high, le16dec_bytes, zext16]⟩
  · exact ⟨_, exec_le16Get hoff s, State.lastOutcome_addOutcome _ _⟩

end Sys2Proof.Machine

/-! ### A read sees the latest earlier write (R50) -/

namespace Sys2Proof.Machine

/-- A read that answers with `f` of the state, issued after operations that leave `f`, answers with `f` of the state
before them. -/
theorem read_after_keeping {α : Type} (f : State → α) {answer : α → OpOutcome} {r : Instr} {ops : List Instr}
    (hread : ∀ u, exec r u = .next (u.addOutcome (answer (f u))))
    (hkeep : ∀ i ∈ ops, ∀ u v, exec i u = .next v → f v = f u) (s : State) :
    ∃ t, issueAll (ops ++ [r]) s = .next t ∧ t.lastOutcome = answer (f s) := by
  obtain ⟨t, _, ht, -, -⟩ := issueAll_goes_on ops s
  refine ⟨t.addOutcome (answer (f t)), ?_, ?_⟩
  · rw [issueAll_append ht, issueAll_cons (hread t), issueAll_nil]
  · rw [State.lastOutcome_addOutcome, issueAll_keeps f hkeep ht]

/-- `FB.RD` after operations that may not write its byte. -/
theorem fbRd_after {off : Nat} (hoff : off ≤ 63) {ops : List Instr} (hops : ∀ i ∈ ops, mayWrite i off = false)
    (s : State) :
    ∃ t, issueAll (ops ++ [.fbRd off]) s = .next t ∧ t.lastOutcome = .ok (zext16 (s.fb.read off)) :=
  read_after_keeping (fun u => u.fb.read off) (answer := fun b => .ok (zext16 b)) (exec_fbRd hoff)
    (fun i hi _ _ h => (exec_effect h).read_eq (hops i hi)) s

/-- `CRC.READ` after operations that do not write the accumulator. -/
theorem crcRead_after {ops : List Instr} (hops : ∀ i ∈ ops, writesCrc i = false) (s : State) :
    ∃ t, issueAll (ops ++ [.crcRead]) s = .next t ∧ t.lastOutcome = .ok (zext16 s.crc) :=
  read_after_keeping State.crc (answer := fun c => .ok (zext16 c)) exec_crcRead
    (fun i hi _ _ h => (exec_effect h).crc_eq (hops i hi)) s

/-- Settles O43: the operations between leave what is read, so the read answers with what stood there before them: any
value, the one just written, or the reset value (R25). -/
theorem readSeesLatestWrite : Obligations.ReadSeesLatestWrite := by
  intro between s
  refine ⟨fun off hoff hbetween => ⟨fbRd_after hoff hbetween s, fun b => ?_, fbRd_after hoff hbetween .reset⟩,
    fun hbetween => ⟨crcRead_after hbetween s, crcRead_after hbetween .reset⟩, issueAll_goes_on between s⟩
  rw [issueAll_cons (exec_fbWr hoff b s)]
  have hread := fbRd_after hoff hbetween ((s.setFb (s.fb.write off b)).addOutcome (.ok 0))
  simpa [zext16] using hread

end Sys2Proof.Machine

/-! ### A frame moved into FB and out again (R40) -/

namespace Sys2Proof.Machine

/-- The state with more outcomes, in issue order. -/
def State.addOutcomes (s : State) (os : List OpOutcome) : State := { s with outcomes := s.outcomes ++ os }

@[simp] theorem State.addOutcomes_fb (s : State) (os : List OpOutcome) : (s.addOutcomes os).fb = s.fb := rfl
@[simp] theorem State.addOutcomes_outcomes (s : State) (os : List OpOutcome) :
    (s.addOutcomes os).outcomes = s.outcomes ++ os := rfl
@[simp] theorem State.addOutcomes_nil (s : State) : s.addOutcomes [] = s := by simp [State.addOutcomes]
@[simp] theorem State.addOutcomes_addOutcome (s : State) (o : OpOutcome) (os : List OpOutcome) :
    (s.addOutcome o).addOutcomes os = s.addOutcomes (o :: os) := by simp [State.addOutcomes, State.addOutcome]

/-- `FB.WR` byte by byte from `off` on is `MemWrite` (R42). -/
theorem issueAll_fbWr_zipIdx (bs : List Byte) (off : Nat) (h : off + bs.length ≤ 64) (s : State) :
    issueAll ((bs.zipIdx off).map fun x => .fbWr x.2 x.1) s =
      .next ((s.setFb (s.fb.writeSeq off bs)).addOutcomes (List.replicate bs.length (.ok 0))) := by
  induction bs generalizing off s with
  | nil => simp [State.setFb]
  | cons b bs ih =>
    rw [List.length_cons] at h
    rw [List.zipIdx_cons, List.map_cons, issueAll_cons (exec_fbWr (by omega) b s), ih (off + 1) (by omega),
      Memory.writeSeq_cons, List.length_cons, List.replicate_succ, ← State.addOutcomes_addOutcome]
    rfl

/-- `FB.RD` at each offset of a list answers with the bytes there, in order. -/
theorem issueAll_fbRd_map (offs : List Nat) (h : ∀ off ∈ offs, off ≤ 63) (s : State) :
    issueAll (offs.map .fbRd) s =
      .next (s.addOutcomes (offs.map fun off => .ok (zext16 (s.fb.read off)))) := by
  induction offs generalizing s with
  | nil => simp
  | cons off offs ih =>
    rw [List.map_cons, issueAll_cons (exec_fbRd (h off (by simp)) s), ih (fun o ho => h o (by simp [ho]))]
    simp

/-- Settles O44: `storeFrame` leaves the frame's bytes at their indices, and `takeFrame` reads them by index. -/
theorem frameKeepsOrderAndLength : Obligations.FrameKeepsOrderAndLength := by
  intro frame s hlen
  have hread (k : Nat) (hk : k < 64) : (s.fb.writeSeq 0 frame).read k = frame.getD k 0 := by
    simp [Memory.read_writeSeq, hlen, hk]
  have hstore : issueAll (storeFrame frame) s = _ := issueAll_fbWr_zipIdx frame 0 (by omega) s
  have hoffs : ∀ off ∈ List.range Config.frameLen, off ≤ 63 := fun off h =>
    Nat.le_of_lt_succ (List.mem_range.mp h)
  refine ⟨_, (issueAll_append hstore takeFrame).trans (issueAll_fbRd_map _ hoffs _), fun k hk => ?_, ?_⟩
  · exact hread k (by omega)
  · have htaken : ((List.range 64).map fun k => OpOutcome.ok (zext16 ((s.fb.writeSeq 0 frame).read k))) =
        frame.map fun b => .ok (b.setWidth 16) := by
      apply List.ext_getElem
      · simp [hlen]
      · intro k hk hk'
        rw [List.length_map] at hk'
        simp [hread k (by omega), hk', zext16]
    simpa [hlen] using htaken

end Sys2Proof.Machine

/-! ### Seeding, feeding and reading the CRC (R93, R97 to R99) -/

namespace Sys2Proof.Machine

/-- `CRC.INIT` loads the seed (R97). -/
theorem exec_crcInit (s : State) : exec .crcInit s = .next ((s.setCrc 0x00).addOutcome (.ok 0)) := rfl

/-- `CRC.FEED` updates the accumulator by one byte (R98). -/
theorem exec_crcFeed (b : Byte) (s : State) :
    exec (.crcFeed b) s = .next ((s.setCrc (upd s.crc b)).addOutcome (.ok 0)) := rfl

/-- Settles O13: CRC.INIT loads the constant 0x00, so a second one finds the seed and loads it again. -/
theorem crcInitLoadsSeed : Obligations.CrcInitLoadsSeed := by
  refine ⟨by decide, exec_crcInit, fun s t h => ⟨_, exec_crcInit t, ?_⟩⟩
  obtain rfl : (s.setCrc 0x00).addOutcome (.ok 0) = t := Host.Outcome.next.inj h
  exact ⟨rfl, rfl⟩

/-- Feeding bytes in order folds the update over them, first byte first, and changes nothing else but the outcomes. -/
theorem issueAll_crcFeed_map (bs : List Byte) (s : State) :
    issueAll (bs.map .crcFeed) s =
      .next ((s.setCrc (bs.foldl upd s.crc)).addOutcomes (List.replicate bs.length (.ok 0))) := by
  induction bs generalizing s with
  | nil => simp [State.setCrc]
  | cons b bs ih =>
    rw [List.map_cons, issueAll_cons (exec_crcFeed b s), ih, List.length_cons, List.replicate_succ,
      ← State.addOutcomes_addOutcome]
    rfl

/-- Bytes fed from the seed leave their CRC (R93). -/
theorem issueAll_crcFeed_map_of_seed {s : State} (hseed : s.crc = 0x00) (bs : List Byte) :
    issueAll (bs.map .crcFeed) s =
      .next ((s.setCrc (crc8 bs)).addOutcomes (List.replicate bs.length (.ok 0))) := by
  rw [issueAll_crcFeed_map, hseed]
  rfl

/-- `CRC.READ` at the end of a program answers with the accumulator that the program leaves. -/
theorem crcRead_answers_final {ops : List Instr} {s t : State} (h : issueAll ops s = .next t) :
    ∃ u, issueAll (ops ++ [.crcRead]) s = .next u ∧ u.lastOutcome = .ok (zext16 t.crc) := by
  rw [issueAll_append h]
  exact ⟨_, issueAll_cons (exec_crcRead t) [], State.lastOutcome_addOutcome _ _⟩

/-- Bytes fed from the seed and read out give their CRC (R99). -/
theorem crcRead_after_feeds_of_seed {s : State} (hseed : s.crc = 0x00) (bs : List Byte) :
    ∃ t, issueAll (bs.map .crcFeed ++ [.crcRead]) s = .next t ∧ t.lastOutcome = .ok (zext16 (crc8 bs)) :=
  crcRead_answers_final (issueAll_crcFeed_map_of_seed hseed bs)

/-- Settles O18: CRC.INIT puts the seed into the accumulator, and the feeds fold the update over it. -/
theorem feedingComputesCrc8 : Obligations.FeedingComputesCrc8 := by
  refine ⟨crc8_nil, fun bs b => crc8_append bs [b], fun bs s => ?_⟩
  rw [issueAll_cons (exec_crcInit s)]
  exact ⟨_, issueAll_crcFeed_map_of_seed rfl bs, rfl, rfl⟩

/-- Settles O15: CRC.INIT and reset both put the seed into the accumulator, from where the bytes are fed and read out. -/
theorem crcReadReturnsAccumulator : Obligations.CrcReadReturnsAccumulator := by
  refine ⟨by decide, exec_crcRead, fun s bs => ?_, fun s u bs h => ?_⟩
  · rw [issueAll_cons (exec_crcInit s)]
    exact crcRead_after_feeds_of_seed rfl bs
  · obtain rfl : (s.setCrc 0x00).setFb Memory.zeros = u := Host.Outcome.next.inj h
    exact crcRead_after_feeds_of_seed rfl bs

end Sys2Proof.Machine

/-! ### Clearing the frame buffer (R140) -/

namespace Sys2Proof.Machine

/-- `FB.CLR` puts the memory of zeros into FB (R140). -/
theorem exec_fbClr (s : State) : exec .fbClr s = .next ((s.setFb Memory.zeros).addOutcome (.ok 0)) := rfl

/-- Settles O19: the state after FB.CLR holds the memory of zeros, which reads 0x00 at every offset. -/
theorem fbClrZeroesTheFrame : Obligations.FbClrZeroesTheFrame :=
  ⟨by decide, fun s => ⟨_, exec_fbClr s, Memory.read_zeros, rfl, rfl, rfl⟩⟩

end Sys2Proof.Machine

/-! ### The errors a step can record (R188)

An operation ends by returning or by raising one of two errors, `InvalidParameter` and `PecMismatch`; a step executes an
operation, raises `InvalidParameter` for a reserved word, or resets the unit without an outcome (`step_effect`). -/

namespace Sys2Proof.Machine

/-- What a step that goes on in `t` did with the first input of the host: it executed an operation, issued as such or
decoded from a command word; or it refused a reserved word; or it reset the unit. -/
inductive StepEffect (s t : State) : Prop where
  | executed (i : Instr) (rest : List Input)
      (hi : s.pending = .operation i :: rest ∨ ∃ w, s.pending = .command w :: rest ∧ decode w = .ok i)
      (h : exec i (s.setPending rest) = .next t)
  | reserved (w : Word) (rest : List Input) (reason : DecodeError) (hw : s.pending = .command w :: rest)
      (hdec : decode w = .error reason)
      (h : t = (s.setPending rest).addOutcome (.err ⟨.invalidParameter, .word w⟩))
  | reset (rest : List Input) (hr : s.pending = .reset :: rest)
      (h : t = ((s.setPending rest).setCrc 0x00).setFb Memory.zeros)

/-- Everything a step that goes on can have done. -/
theorem step_effect {s t : State} (h : step s = .next t) : StepEffect s t := by
  cases hp : s.pending with
  | nil => simp [step, hp] at h
  | cons input rest =>
    rw [step, nextInput_cons s input rest hp] at h
    cases input with
    | operation i => exact .executed i rest (.inl hp) h
    | reset => exact .reset rest hp (Host.Outcome.next.inj h).symm
    | command w =>
      cases hdec : decode w with
      | ok i => exact .executed i rest (.inr ⟨w, hp, hdec⟩) (by simpa [hdec] using h)
      | error reason =>
        have hraise : raiseReserved w (s.setPending rest) = .next t := by simpa [hdec] using h
        exact .reserved w rest reason hp hdec (Host.Outcome.next.inj hraise).symm

/-- The names of the errors that the unit raises itself (R180). -/
def unitErrorNames : List ErrorName := [.invalidParameter, .pecMismatch]

/-- Whatever error the result `x` from `s` reports, its name is one of the unit's own. -/
def RaisesUnitErrors (s : State) (x : Host.Outcome State Fault Refusal) : Prop :=
  ∀ t e, x = .next t → t.outcomes = s.outcomes ++ [.err e] → e.name ∈ unitErrorNames

/-- A returned value is no error. -/
theorem RaisesUnitErrors.returned (v : Half) {s u : State} (hu : u.outcomes = s.outcomes) :
    RaisesUnitErrors s (returnOk v u) := by
  rintro t e ⟨⟩ herr
  simp [hu] at herr

/-- A raised error is the one reported. -/
theorem RaisesUnitErrors.raised {name : ErrorName} (hname : name ∈ unitErrorNames) (info : ErrInfo) (s : State) :
    RaisesUnitErrors s (raise name info s) := by
  rintro t e ⟨⟩ herr
  obtain rfl : (⟨name, info⟩ : OpError) = e := by simpa using herr
  exact hname

/-- `InvalidParameter` is one of the unit's own errors (R180). -/
theorem RaisesUnitErrors.invalid (info : ErrInfo) (s : State) :
    RaisesUnitErrors s (raise .invalidParameter info s) :=
  .raised (by decide) info s

/-- A choice between two continuations raises what the chosen one raises. -/
theorem RaisesUnitErrors.ite {s : State} {c : Prop} [Decidable c] {yes no : Host.Outcome State Fault Refusal}
    (hyes : RaisesUnitErrors s yes) (hno : RaisesUnitErrors s no) : RaisesUnitErrors s (if c then yes else no) := by
  split
  · exact hyes
  · exact hno

/-- A checked access raises what its body raises, and `InvalidParameter` outside the frame (R48). -/
theorem RaisesUnitErrors.checked (off n : Nat) {s : State} {body : Host.Outcome State Fault Refusal}
    (hbody : RaisesUnitErrors s body) : RaisesUnitErrors s (checkOffset off n s body) :=
  .ite hbody (.invalid _ s)

/-- No operation raises an error of the transport or of the engine driver. -/
theorem exec_raisesUnitErrors (i : Instr) (s : State) : RaisesUnitErrors s (exec i s) := by
  cases i with
  | crcInit => exact .returned _ rfl
  | crcFeed b => exact .returned _ rfl
  | crcRead => exact .returned _ rfl
  | pecCheck r => exact .ite (.returned _ rfl) (.raised (by decide) _ s)
  | curGet off => exact .checked off 1 (.returned _ rfl)
  | curPut off mA => exact .checked off 1 (.ite (.invalid _ s) (.ite (.invalid _ s) (.returned _ rfl)))
  | fbClr => exact .returned _ rfl
  | fbWr off b => exact .checked off 1 (.returned _ rfl)
  | fbRd off => exact .checked off 1 (.returned _ rfl)
  | bfGet off width shift => exact .checked off 1 (.returned _ rfl)
  | bfPut off width shift value =>
    exact .checked off 1 (.ite (.invalid _ s) (.ite (.invalid _ s) (.returned _ rfl)))
  | bfMark off apply => exact .checked off 1 (.ite (.invalid _ s) (.returned _ rfl))
  | le16Get off => exact .checked off 2 (.returned _ rfl)
  | le16Put off v => exact .checked off 2 (.returned _ rfl)

/-- No step raises an error of the transport or of the engine driver; a reset reports none at all. -/
theorem step_raisesUnitErrors (s : State) : RaisesUnitErrors s (step s) := by
  intro t e hstep herr
  cases step_effect hstep with
  | executed i rest _ h => exact exec_raisesUnitErrors i (s.setPending rest) t e h herr
  | reserved w rest _ _ _ h => exact RaisesUnitErrors.invalid (.word w) (s.setPending rest) t e (by simp [h]) herr
  | reset rest _ h => simp [h] at herr

/-- Settles O41: a step raises only the unit's own two errors, and none of the six is one of them. -/
theorem stepNeverRecordsForeignErrors : Obligations.StepNeverRecordsForeignErrors := by
  intro s t e hstep herr
  have hown : e.name = .invalidParameter ∨ e.name = .pecMismatch := by
    simpa [unitErrorNames] using step_raisesUnitErrors s t e hstep herr
  rcases hown with hname | hname <;> simp [hname]

end Sys2Proof.Machine

/-! ### Command words (R60 to R72)

A word is the fields `op`, `off`, `rsv` and `low`. `Decodes` says row by row what the decoder asks of them; the encoder
meets it (`decodeOfEncodeIsIdentity`), and it determines the word (`Decodes.encode_eq`). -/

namespace Sys2Proof

/-! #### Operands and their fields -/

theorem offsetFits_iff {off : Nat} : offsetFits off = true ↔ off < 64 := by
  rw [offsetFits, decide_eq_true_eq]
  omega

theorem widthFits_iff {width : Nat} : widthFits width = true ↔ width < 16 := by
  rw [widthFits, decide_eq_true_eq]
  omega

theorem shiftFits_iff {shift : Nat} : shiftFits shift = true ↔ shift < 8 := by
  rw [shiftFits, decide_eq_true_eq]
  omega

@[simp] theorem offsetFits_toNat (off : BitVec 6) : offsetFits off.toNat = true := offsetFits_iff.2 off.isLt
@[simp] theorem widthFits_toNat (width : BitVec 4) : widthFits width.toNat = true := widthFits_iff.2 width.isLt
@[simp] theorem shiftFits_toNat (shift : BitVec 3) : shiftFits shift.toNat = true := shiftFits_iff.2 shift.isLt

/-! #### The decoder, row by row -/

theorem requireZeros_eq_ok {zeros : Bool} {i j : Instr} :
    requireZeros zeros i = .ok j ↔ zeros = true ∧ i = j := by
  cases zeros <;> simp [requireZeros]

/-- What the decoder asks of a word for each operation (R70): the code in `op`, the must-be-zero bits of the format, and
the operands in their fields. -/
inductive Decodes (w : Word) : Instr → Prop where
  | crcInit (hop : opField w = 0x1) (hz : formatN w = true) : Decodes w .crcInit
  | crcFeed (hop : opField w = 0x2) (hz : formatI w = true) : Decodes w (.crcFeed (imm8Field w))
  | crcRead (hop : opField w = 0x3) (hz : formatN w = true) : Decodes w .crcRead
  | pecCheck (hop : opField w = 0x4) (hz : formatI w = true) : Decodes w (.pecCheck (imm8Field w))
  | curGet (hop : opField w = 0x5) (hz : formatO w = true) : Decodes w (.curGet (offField w).toNat)
  | curPut (hop : opField w = 0x6) (hz : formatW w = true) : Decodes w (.curPut (offField w).toNat (lowField w))
  | fbClr (hop : opField w = 0x8) (hz : formatN w = true) : Decodes w .fbClr
  | fbWr (hop : opField w = 0x9) (hz : formatOI w = true) : Decodes w (.fbWr (offField w).toNat (imm8Field w))
  | fbRd (hop : opField w = 0xA) (hz : formatO w = true) : Decodes w (.fbRd (offField w).toNat)
  | bfGet (hop : opField w = 0xB) (hz : formatFGet w = true) :
      Decodes w (.bfGet (offField w).toNat (widthField w).toNat (shiftField w).toNat)
  | bfPut (hop : opField w = 0xC) (hz : formatF w = true) :
      Decodes w (.bfPut (offField w).toNat (widthField w).toNat (shiftField w).toNat (imm8Field w))
  | bfMark (hop : opField w = 0xD) (hz : formatM w = true) : Decodes w (.bfMark (offField w).toNat (applyField w))
  | le16Get (hop : opField w = 0xE) (hz : formatO w = true) : Decodes w (.le16Get (offField w).toNat)
  | le16Put (hop : opField w = 0xF) (hz : formatW w = true) : Decodes w (.le16Put (offField w).toNat (lowField w))

/-- The decoder answers with an operation exactly where the word meets what is asked for it. -/
theorem decode_eq_ok {w : Word} {i : Instr} : decode w = .ok i ↔ Decodes w i := by
  constructor
  · intro h
    unfold decode at h
    split at h
    case h_15 => exact nomatch h
    all_goals
      next hop =>
        obtain ⟨hz, rfl⟩ := requireZeros_eq_ok.1 h
        constructor
        · exact BitVec.eq_of_toNat_eq hop
        · exact hz
  · intro h
    cases h <;> next hop hz => simp [decode, hop, requireZeros, hz]

theorem toNat_ofNat_offset {off : Nat} (h : offsetFits off = true) : (BitVec.ofNat 6 off).toNat = off :=
  BitVec.toNat_ofNat off 6 ▸ Nat.mod_eq_of_lt (offsetFits_iff.1 h)

theorem toNat_ofNat_width {width : Nat} (h : widthFits width = true) : (BitVec.ofNat 4 width).toNat = width :=
  BitVec.toNat_ofNat width 4 ▸ Nat.mod_eq_of_lt (widthFits_iff.1 h)

theorem toNat_ofNat_shift {shift : Nat} (h : shiftFits shift = true) : (BitVec.ofNat 3 shift).toNat = shift :=
  BitVec.toNat_ofNat shift 3 ▸ Nat.mod_eq_of_lt (shiftFits_iff.1 h)

/-- Settles O1: the fields of the encoded word are those the decoder asks for, and an operand that fits its field is
read back from it. The cases are grouped by format. -/
theorem decodeOfEncodeIsIdentity : Obligations.DecodeOfEncodeIsIdentity := by
  intro i hwf
  cases i with
  | crcInit | crcRead | fbClr => decide
  | crcFeed b | pecCheck b => simp [decode, encode, requireZeros, formatI]
  | curGet off | fbRd off | le16Get off =>
    simp [decode, encode, requireZeros, formatO, toNat_ofNat_offset hwf, -BitVec.toNat_ofNat]
  | curPut off v | le16Put off v =>
    simp [decode, encode, requireZeros, formatW, toNat_ofNat_offset hwf, -BitVec.toNat_ofNat]
  | fbWr off b => simp [decode, encode, requireZeros, formatOI, toNat_ofNat_offset hwf, -BitVec.toNat_ofNat]
  | bfMark off apply =>
    simp [decode, encode, requireZeros, formatM, toNat_ofNat_offset hwf, -BitVec.toNat_ofNat,
      -BitVec.getLsbD_eq_getElem]
  | bfGet off width shift =>
    simp only [Instr.wf, Bool.and_eq_true] at hwf
    obtain ⟨⟨hoff, hwidth⟩, hshift⟩ := hwf
    simp [decode, encode, requireZeros, formatFGet, formatF, toNat_ofNat_offset hoff, toNat_ofNat_width hwidth,
      toNat_ofNat_shift hshift, -BitVec.toNat_ofNat, -BitVec.getLsbD_eq_getElem]
  | bfPut off width shift value =>
    simp only [Instr.wf, Bool.and_eq_true] at hwf
    obtain ⟨⟨hoff, hwidth⟩, hshift⟩ := hwf
    simp [decode, encode, requireZeros, formatF, toNat_ofNat_offset hoff, toNat_ofNat_width hwidth,
      toNat_ofNat_shift hshift, -BitVec.toNat_ofNat, -BitVec.getLsbD_eq_getElem]

/-! #### A word from its fields -/

/-- Equal slices of two words are equal bits. -/
theorem getLsbD_eq_of_slice {w w' : Word} {start len n : Nat} (h : w.extractLsb' start len = w'.extractLsb' start len)
    (hlo : start ≤ n) (hhi : n < start + len) : w.getLsbD n = w'.getLsbD n := by
  have hbit := congrArg (BitVec.getLsbD · (n - start)) h
  simpa [show n - start < len by omega, show start + (n - start) = n by omega] using hbit

/-- A zero slice of a word is zero bits. -/
theorem getLsbD_eq_false_of_slice {w : Word} {start len n : Nat} (h : w.extractLsb' start len = 0)
    (hlo : start ≤ n) (hhi : n < start + len) : w.getLsbD n = false := by
  rw [getLsbD_eq_of_slice (w' := 0) (by simpa using h) hlo hhi]
  simp

/-- The low half of formats I and OI is its immediate (R64, R66). -/
theorem lowField_eq_lowImm8 {w : Word} (h : lowHighByte w = 0) : lowField w = lowImm8 (imm8Field w) := by
  apply BitVec.eq_of_getLsbD_eq
  intro n hn
  by_cases h8 : n < 8
  · simp [lowField, lowImm8, imm8Field, h8, hn]
  · have hbit : w.getLsbD n = false := getLsbD_eq_false_of_slice h (by omega) (by omega)
    simp [lowField, lowImm8, imm8Field, h8, hbit]

/-- The low half of format F is its shift, width and immediate (R67). -/
theorem lowField_eq_lowF {w : Word} (h : w.getLsbD 15 = false) :
    lowField w = lowF (widthField w).toNat (shiftField w).toNat (imm8Field w) := by
  apply BitVec.eq_of_getLsbD_eq
  intro n hn
  rw [getLsbD_lowF, BitVec.ofNat_toNat, BitVec.ofNat_toNat, BitVec.setWidth_eq, BitVec.setWidth_eq]
  by_cases h8 : n < 8
  · simp [lowField, imm8Field, h8, hn]
  · by_cases h12 : n < 12
    · simp [lowField, widthField, hn, h8, h12, show n - 8 < 4 by omega, show 8 + (n - 8) = n by omega]
    · by_cases h15 : n = 15
      · simp [lowField, shiftField, h15, h, -BitVec.getLsbD_eq_getElem]
      · simp [lowField, shiftField, hn, h8, h12, show n - 12 < 3 by omega, show 12 + (n - 12) = n by omega]

/-- The low half of format M is its flag (R68). -/
theorem lowField_eq_lowM {w : Word} (h : w.extractLsb' 1 15 = 0) : lowField w = lowM (applyField w) := by
  apply BitVec.eq_of_getLsbD_eq
  intro n hn
  by_cases h0 : n = 0
  · simp [lowField, lowM, applyField, h0]
  · have hbit : w.getLsbD n = false := getLsbD_eq_false_of_slice h (by omega) (by omega)
    simp [lowField, lowM, hbit, h0]

/-- A word is put together from what its fields hold. -/
theorem commandWord_eq {w : Word} {op : BitVec 4} {off : BitVec 6} {low : Half} (hop : opField w = op)
    (hoff : offField w = off) (hrsv : rsvField w = 0) (hlow : lowField w = low) : commandWord op off low = w := by
  rw [← hop, ← hoff, ← hlow, commandWord_of_fields w hrsv]

/-- A decoded operation has a command word (R71). -/
theorem Decodes.wf {w : Word} {i : Instr} (h : Decodes w i) : i.wf = true := by
  cases h <;> simp [Instr.wf]

section
variable {w : Word} {op : BitVec 4}

theorem commandWord_of_formatN (hop : opField w = op) (hz : formatN w = true) : commandWord op 0 0 = w := by
  simp only [formatN, Bool.and_eq_true, beq_iff_eq] at hz
  obtain ⟨⟨hoff, hrsv⟩, hlow⟩ := hz
  exact commandWord_eq hop hoff hrsv hlow

theorem commandWord_of_formatI (hop : opField w = op) (hz : formatI w = true) :
    commandWord op 0 (lowImm8 (imm8Field w)) = w := by
  simp only [formatI, Bool.and_eq_true, beq_iff_eq] at hz
  obtain ⟨⟨hoff, hrsv⟩, hhigh⟩ := hz
  exact commandWord_eq hop hoff hrsv (lowField_eq_lowImm8 hhigh)

theorem commandWord_of_formatO (hop : opField w = op) (hz : formatO w = true) :
    commandWord op (BitVec.ofNat 6 (offField w).toNat) 0 = w := by
  simp only [formatO, Bool.and_eq_true, beq_iff_eq] at hz
  obtain ⟨hrsv, hlow⟩ := hz
  exact commandWord_eq hop (by simp) hrsv hlow

theorem commandWord_of_formatOI (hop : opField w = op) (hz : formatOI w = true) :
    commandWord op (BitVec.ofNat 6 (offField w).toNat) (lowImm8 (imm8Field w)) = w := by
  simp only [formatOI, Bool.and_eq_true, beq_iff_eq] at hz
  obtain ⟨hrsv, hhigh⟩ := hz
  exact commandWord_eq hop (by simp) hrsv (lowField_eq_lowImm8 hhigh)

theorem commandWord_of_formatF (hop : opField w = op) (hz : formatF w = true) :
    commandWord op (BitVec.ofNat 6 (offField w).toNat)
      (lowF (widthField w).toNat (shiftField w).toNat (imm8Field w)) = w := by
  simp only [formatF, Bool.and_eq_true, Bool.not_eq_true', beq_iff_eq] at hz
  obtain ⟨hrsv, h15⟩ := hz
  exact commandWord_eq hop (by simp) hrsv (lowField_eq_lowF h15)

theorem commandWord_of_formatFGet (hop : opField w = op) (hz : formatFGet w = true) :
    commandWord op (BitVec.ofNat 6 (offField w).toNat) (lowF (widthField w).toNat (shiftField w).toNat 0) = w := by
  rw [formatFGet, Bool.and_eq_true, beq_iff_eq] at hz
  obtain ⟨hf, himm⟩ := hz
  rw [← himm]
  exact commandWord_of_formatF hop hf

theorem commandWord_of_formatM (hop : opField w = op) (hz : formatM w = true) :
    commandWord op (BitVec.ofNat 6 (offField w).toNat) (lowM (applyField w)) = w := by
  simp only [formatM, Bool.and_eq_true, beq_iff_eq] at hz
  obtain ⟨hrsv, hhigh⟩ := hz
  exact commandWord_eq hop (by simp) hrsv (lowField_eq_lowM hhigh)

theorem commandWord_of_formatW (hop : opField w = op) (hz : formatW w = true) :
    commandWord op (BitVec.ofNat 6 (offField w).toNat) (lowField w) = w := by
  rw [formatW, beq_iff_eq] at hz
  exact commandWord_eq hop (by simp) hz rfl

end

/-- A decoded operation encodes to the word it was decoded from. -/
theorem Decodes.encode_eq {w : Word} {i : Instr} (h : Decodes w i) : encode i = w := by
  cases h with
  | crcInit hop hz => exact commandWord_of_formatN hop hz
  | crcFeed hop hz => exact commandWord_of_formatI hop hz
  | crcRead hop hz => exact commandWord_of_formatN hop hz
  | pecCheck hop hz => exact commandWord_of_formatI hop hz
  | curGet hop hz => exact commandWord_of_formatO hop hz
  | curPut hop hz => exact commandWord_of_formatW hop hz
  | fbClr hop hz => exact commandWord_of_formatN hop hz
  | fbWr hop hz => exact commandWord_of_formatOI hop hz
  | fbRd hop hz => exact commandWord_of_formatO hop hz
  | bfGet hop hz => exact commandWord_of_formatFGet hop hz
  | bfPut hop hz => exact commandWord_of_formatF hop hz
  | bfMark hop hz => exact commandWord_of_formatM hop hz
  | le16Get hop hz => exact commandWord_of_formatO hop hz
  | le16Put hop hz => exact commandWord_of_formatW hop hz

/-- Settles O2: the must-be-zero bits and the fields of the operands are the whole word. -/
theorem encodeOfDecodeIsIdentity : Obligations.EncodeOfDecodeIsIdentity := by
  intro w i h
  have hdec : Decodes w i := decode_eq_ok.1 h
  exact ⟨hdec.wf, hdec.encode_eq⟩

/-! #### The opcode map

A masked comparison of words is one masked comparison per field, and the masks of R70 keep a field whole, drop it, or
keep the must-be-zero bits of its format. -/

/-- Two words are equal exactly where their four fields are. -/
theorem word_eq_iff {w w' : Word} :
    w = w' ↔ opField w = opField w' ∧ offField w = offField w' ∧ rsvField w = rsvField w' ∧
      lowField w = lowField w' := by
  refine ⟨fun h => by simp [h], fun ⟨hop, hoff, hrsv, hlow⟩ => BitVec.eq_of_getLsbD_eq fun n hn => ?_⟩
  by_cases h1 : n < 16
  · exact getLsbD_eq_of_slice hlow (by omega) (by omega)
  · by_cases h2 : n < 22
    · exact getLsbD_eq_of_slice hrsv (by omega) (by omega)
    · by_cases h3 : n < 28
      · exact getLsbD_eq_of_slice hoff (by omega) (by omega)
      · exact getLsbD_eq_of_slice hop (by omega) (by omega)

/-- A mask that keeps `op` and `rsv` whole, against a pattern that is an `op` alone. -/
theorem masked_eq_iff {w mask pattern : Word} {op : BitVec 4} (hop : opField mask = BitVec.allOnes 4)
    (hrsv : rsvField mask = BitVec.allOnes 6) (hpattern : pattern = commandWord op 0 0) :
    w &&& mask = pattern ↔
      opField w = op ∧ offField w &&& offField mask = 0 ∧ rsvField w = 0 ∧ lowField w &&& lowField mask = 0 := by
  simp only [word_eq_iff, hpattern, opField_commandWord, offField_commandWord, rsvField_commandWord,
    lowField_commandWord, show opField (w &&& mask) = opField w &&& opField mask from BitVec.extractLsb'_and,
    show offField (w &&& mask) = offField w &&& offField mask from BitVec.extractLsb'_and,
    show rsvField (w &&& mask) = rsvField w &&& rsvField mask from BitVec.extractLsb'_and,
    show lowField (w &&& mask) = lowField w &&& lowField mask from BitVec.extractLsb'_and, hop, hrsv,
    BitVec.and_allOnes]

theorem bitVec_eq_zero_iff {n : Nat} {x : BitVec n} : x = 0 ↔ ∀ i < n, x.getLsbD i = false := by
  rw [BitVec.eq_of_getLsbD_eq_iff]
  simp

theorem lowHighByte_eq_zero {w : Word} : lowHighByte w = 0 ↔ lowField w &&& 0xFF00 = 0 := by
  simp only [lowHighByte, lowField, bitVec_eq_zero_iff, Nat.forall_lt_succ_right]
  simp [-BitVec.getLsbD_eq_getElem]

theorem bit15_eq_false {w : Word} : w.getLsbD 15 = false ↔ lowField w &&& 0x8000 = 0 := by
  simp only [lowField, bitVec_eq_zero_iff, Nat.forall_lt_succ_right]
  simp [-BitVec.getLsbD_eq_getElem]

theorem bit15_imm8_eq_zero {w : Word} : w.getLsbD 15 = false ∧ imm8Field w = 0 ↔ lowField w &&& 0x80FF = 0 := by
  simp only [imm8Field, lowField, bitVec_eq_zero_iff, Nat.forall_lt_succ_right]
  simp [-BitVec.getLsbD_eq_getElem, and_comm]

theorem lowAboveBit0_eq_zero {w : Word} : w.extractLsb' 1 15 = 0 ↔ lowField w &&& 0xFFFE = 0 := by
  simp only [lowField, bitVec_eq_zero_iff, Nat.forall_lt_succ_right]
  simp [-BitVec.getLsbD_eq_getElem]

section
variable {w : Word} (pattern : Word) (op : BitVec 4)

theorem masked_formatN (hp : pattern = commandWord op 0 0 := by decide) :
    w &&& 0xFFFFFFFF = pattern ↔ opField w = op ∧ formatN w = true := by
  rw [masked_eq_iff (by decide) (by decide) hp, show offField 0xFFFFFFFF = BitVec.allOnes 6 by decide,
    show lowField 0xFFFFFFFF = BitVec.allOnes 16 by decide, BitVec.and_allOnes, BitVec.and_allOnes]
  simp [formatN, and_assoc]

theorem masked_formatI (hp : pattern = commandWord op 0 0 := by decide) :
    w &&& 0xFFFFFF00 = pattern ↔ opField w = op ∧ formatI w = true := by
  rw [masked_eq_iff (by decide) (by decide) hp, show offField 0xFFFFFF00 = BitVec.allOnes 6 by decide,
    show lowField 0xFFFFFF00 = 0xFF00 by decide, BitVec.and_allOnes, ← lowHighByte_eq_zero]
  simp [formatI, and_assoc]

theorem masked_formatO (hp : pattern = commandWord op 0 0 := by decide) :
    w &&& 0xF03FFFFF = pattern ↔ opField w = op ∧ formatO w = true := by
  rw [masked_eq_iff (by decide) (by decide) hp, show offField 0xF03FFFFF = 0 by decide,
    show lowField 0xF03FFFFF = BitVec.allOnes 16 by decide, BitVec.and_allOnes]
  simp [formatO]

theorem masked_formatOI (hp : pattern = commandWord op 0 0 := by decide) :
    w &&& 0xF03FFF00 = pattern ↔ opField w = op ∧ formatOI w = true := by
  rw [masked_eq_iff (by decide) (by decide) hp, show offField 0xF03FFF00 = 0 by decide,
    show lowField 0xF03FFF00 = 0xFF00 by decide, ← lowHighByte_eq_zero]
  simp [formatOI]

theorem masked_formatF (hp : pattern = commandWord op 0 0 := by decide) :
    w &&& 0xF03F8000 = pattern ↔ opField w = op ∧ formatF w = true := by
  rw [masked_eq_iff (by decide) (by decide) hp, show offField 0xF03F8000 = 0 by decide,
    show lowField 0xF03F8000 = 0x8000 by decide, ← bit15_eq_false]
  simp [formatF]

theorem masked_formatFGet (hp : pattern = commandWord op 0 0 := by decide) :
    w &&& 0xF03F80FF = pattern ↔ opField w = op ∧ formatFGet w = true := by
  rw [masked_eq_iff (by decide) (by decide) hp, show offField 0xF03F80FF = 0 by decide,
    show lowField 0xF03F80FF = 0x80FF by decide, ← bit15_imm8_eq_zero]
  simp [formatFGet, formatF, and_assoc]

theorem masked_formatM (hp : pattern = commandWord op 0 0 := by decide) :
    w &&& 0xF03FFFFE = pattern ↔ opField w = op ∧ formatM w = true := by
  rw [masked_eq_iff (by decide) (by decide) hp, show offField 0xF03FFFFE = 0 by decide,
    show lowField 0xF03FFFFE = 0xFFFE by decide, ← lowAboveBit0_eq_zero]
  simp [formatM]

theorem masked_formatW (hp : pattern = commandWord op 0 0 := by decide) :
    w &&& 0xF03F0000 = pattern ↔ opField w = op ∧ formatW w = true := by
  rw [masked_eq_iff (by decide) (by decide) hp, show offField 0xF03F0000 = 0 by decide,
    show lowField 0xF03F0000 = 0 by decide]
  simp [formatW]

end

/-- A word matches a row of the opcode map exactly where it decodes to an operation of that row's mnemonic. -/
theorem decodes_iff_matchesRow {w : Word} {m : String} :
    (∃ i, Decodes w i ∧ i.mnemonic = m) ↔ ∃ r ∈ opcodeRows, r.mnemonic = m ∧ w &&& r.mask = r.pattern := by
  simp only [opcodeRows, List.mem_cons, List.not_mem_nil, or_false, exists_eq_or_imp, exists_eq_left,
    masked_formatN 0x10000000 0x1, masked_formatI 0x20000000 0x2, masked_formatN 0x30000000 0x3,
    masked_formatI 0x40000000 0x4, masked_formatO 0x50000000 0x5, masked_formatW 0x60000000 0x6,
    masked_formatN 0x80000000 0x8, masked_formatOI 0x90000000 0x9, masked_formatO 0xA0000000 0xA,
    masked_formatFGet 0xB0000000 0xB, masked_formatF 0xC0000000 0xC, masked_formatM 0xD0000000 0xD,
    masked_formatO 0xE0000000 0xE, masked_formatW 0xF0000000 0xF]
  constructor
  · rintro ⟨i, hdec, rfl⟩
    cases hdec <;> next hop hz => simp [Instr.mnemonic, hop, hz]
  · rintro (⟨rfl, hop, hz⟩ | ⟨rfl, hop, hz⟩ | ⟨rfl, hop, hz⟩ | ⟨rfl, hop, hz⟩ | ⟨rfl, hop, hz⟩ | ⟨rfl, hop, hz⟩ |
      ⟨rfl, hop, hz⟩ | ⟨rfl, hop, hz⟩ | ⟨rfl, hop, hz⟩ | ⟨rfl, hop, hz⟩ | ⟨rfl, hop, hz⟩ | ⟨rfl, hop, hz⟩ |
      ⟨rfl, hop, hz⟩ | ⟨rfl, hop, hz⟩)
    · exact ⟨_, .crcInit hop hz, rfl⟩
    · exact ⟨_, .crcFeed hop hz, rfl⟩
    · exact ⟨_, .crcRead hop hz, rfl⟩
    · exact ⟨_, .pecCheck hop hz, rfl⟩
    · exact ⟨_, .curGet hop hz, rfl⟩
    · exact ⟨_, .curPut hop hz, rfl⟩
    · exact ⟨_, .fbClr hop hz, rfl⟩
    · exact ⟨_, .fbWr hop hz, rfl⟩
    · exact ⟨_, .fbRd hop hz, rfl⟩
    · exact ⟨_, .bfGet hop hz, rfl⟩
    · exact ⟨_, .bfPut hop hz, rfl⟩
    · exact ⟨_, .bfMark hop hz, rfl⟩
    · exact ⟨_, .le16Get hop hz, rfl⟩
    · exact ⟨_, .le16Put hop hz, rfl⟩

/-- Settles O3: the rows of the opcode map ask of a word what the decoder asks. -/
theorem decodeFollowsOpcodeMap : Obligations.DecodeFollowsOpcodeMap := by
  intro w m
  simp only [decode_eq_ok]
  exact decodes_iff_matchesRow

/-- A word that matches no row is reserved (R72). -/
theorem decode_error_of_no_row {w : Word} (h : ∀ r ∈ opcodeRows, w &&& r.mask ≠ r.pattern) :
    ∃ reason, decode w = .error reason := by
  cases hdec : decode w with
  | error reason => exact ⟨reason, rfl⟩
  | ok i =>
    obtain ⟨r, hr, -, hmatch⟩ := (decodeFollowsOpcodeMap w i.mnemonic).1 ⟨i, hdec, rfl⟩
    exact absurd hmatch (h r hr)

/-- Settles O4: each word is decoded by computation. -/
theorem specWordsDecode : Obligations.SpecWordsDecode := by
  unfold Obligations.SpecWordsDecode
  decide

end Sys2Proof

/-! ### What a step does (R4, R46, R72, R210) -/

namespace Sys2Proof.Machine

section
variable {s : State} {rest : List Input}

/-- A step runs the operation that the next command word decodes to. -/
theorem step_command {w : Word} {i : Instr} (hp : s.pending = .command w :: rest) (hdec : decode w = .ok i) :
    step s = exec i (s.setPending rest) := by
  simp [step, nextInput_cons s _ _ hp, hdec]

/-- A step refuses a reserved command word (R72). -/
theorem step_reserved {w : Word} {reason : DecodeError} (hp : s.pending = .command w :: rest)
    (hdec : decode w = .error reason) :
    step s = .next ((s.setPending rest).addOutcome (.err ⟨.invalidParameter, .word w⟩)) := by
  simp [step, nextInput_cons s _ _ hp, hdec]

/-- A step runs the next operation. -/
theorem step_operation {i : Instr} (hp : s.pending = .operation i :: rest) : step s = exec i (s.setPending rest) := by
  simp [step, nextInput_cons s _ _ hp]

/-- A step resets the unit (R210). -/
theorem step_reset (hp : s.pending = .reset :: rest) :
    step s = .next (((s.setPending rest).setCrc 0x00).setFb Memory.zeros) := by
  simp [step, nextInput_cons s _ _ hp]

/-- With an input to issue a step goes on and takes it. -/
theorem step_goes_on {input : Input} (hp : s.pending = input :: rest) : ∃ t, step s = .next t ∧ t.pending = rest := by
  have hexec (i : Instr) : ∃ t, exec i (s.setPending rest) = .next t ∧ t.pending = rest := by
    obtain ⟨t, _, ht, -, hpend⟩ := everyOperationHasOneOutcome i (s.setPending rest)
    exact ⟨t, ht, hpend⟩
  cases input with
  | operation i => exact step_operation hp ▸ hexec i
  | reset => exact ⟨_, step_reset hp, rfl⟩
  | command w =>
    cases hdec : decode w with
    | ok i => exact step_command hp hdec ▸ hexec i
    | error reason => exact ⟨_, step_reserved hp hdec, rfl⟩

end

/-- No effect of an operation breaks the canonical form: a store lies inside the frame (R42, R48). -/
theorem Effect.keeps_inv {i : Instr} {s t : State} (h : Effect i s t) (hs : s.Inv) : t.Inv := by
  cases h with
  | answered o h => exact h ▸ hs
  | accumulated c _ h => exact h ▸ hs
  | cleared _ h => exact h ▸ Memory.wf_zeros
  | stored off bs hlen _ h => exact h ▸ Memory.wf_writeSeq s.fb off bs hs hlen

/-- Settles O11: an executed operation keeps the canonical form, a reserved word leaves the frame buffer, a reset clears
it. -/
theorem stepKeepsFrameBufferCanonical : Obligations.StepKeepsFrameBufferCanonical := by
  intro s t hs hstep
  cases step_effect hstep with
  | executed i rest _ h => exact (exec_effect h).keeps_inv hs
  | reserved w rest _ _ _ h => exact h ▸ hs
  | reset rest _ h => exact h ▸ Memory.wf_zeros

/-- Settles O8: nothing issued is a refusal; whatever is issued, `step_goes_on`. -/
theorem stepGoesOnUnlessNothingIsIssued : Obligations.StepGoesOnUnlessNothingIsIssued := by
  intro s
  cases hp : s.pending with
  | nil => exact ⟨fun _ => by simp [step, hp], fun h => absurd rfl h⟩
  | cons input rest => exact ⟨nofun, fun _ => step_goes_on hp⟩

/-- Settles O5: both inputs that carry an operation. -/
theorem stepRunsDecodedOperation : Obligations.StepRunsDecodedOperation :=
  fun _ _ => ⟨fun _ _ hp hdec => step_command hp hdec, fun _ hp => step_operation hp⟩

/-- Settles O6: a word that matches no row does not decode. -/
theorem reservedWordRaisesInvalidParameter : Obligations.ReservedWordRaisesInvalidParameter := by
  intro s w rest hp hrows
  obtain ⟨reason, hdec⟩ := decode_error_of_no_row hrows
  exact step_reserved hp hdec

/-- Settles O7: the reset event loads 0x00 and the memory of zeros, and touches neither list. -/
theorem resetEventClearsUnit : Obligations.ResetEventClearsUnit :=
  fun _ _ hp => ⟨_, step_reset hp, rfl, Memory.read_zeros, rfl, rfl⟩

/-- Settles O9: the reset state lists no byte. -/
theorem resetStateIsAllZero : Obligations.ResetStateIsAllZero :=
  ⟨State.reset_crc, Memory.read_nil⟩

/-- Settles O10: the reset state lists no byte. -/
theorem resetFrameBufferIsCanonical : Obligations.ResetFrameBufferIsCanonical := Memory.wf_zeros

/-! #### A run over command words -/

/-- What the host has still to issue goes through an operation unseen: the result with one list is the result with
another, but for the list. -/
theorem exec_setPending (i : Instr) (s : State) (l : List Input) :
    ∃ t : State, exec i (s.setPending []) = .next (t.setPending []) ∧
      exec i (s.setPending l) = .next (t.setPending l) := by
  obtain ⟨c, m, o, hnil, hl⟩ := exec_alike i (s := s.setPending []) (s' := s.setPending l) rfl rfl
  exact ⟨((s.setCrc c).setFb m).addOutcome o, hnil, hl⟩

/-- Settles O12: one step runs the first operation, unseen by it the rest of the words, which the induction runs. -/
theorem runOfCommandWordsIsTheProgram : Obligations.RunOfCommandWordsIsTheProgram := by
  intro ops
  induction ops with
  | nil => exact fun _ _ => rfl
  | cons i is ih =>
    intro s hwf
    obtain ⟨t, hnil, hwords⟩ := exec_setPending i s (is.map fun i => .command (encode i))
    have hstep : core.step (s.setPending ((i :: is).map fun i => .command (encode i))) = .next (t.setPending _) :=
      (step_command (s := s.setPending _) rfl (decodeOfEncodeIsIdentity i (hwf i (by simp)))).trans hwords
    rw [issueAll_cons hnil, ← ih t fun j hj => hwf j (by simp [hj])]
    simp only [List.length_cons, Host.Core.run, hstep]

end Sys2Proof.Machine

/-! ### Command words written out (R61 to R70)

The word of an operation as its code, offset and low half, each moved to its bits. -/

namespace Sys2Proof

/-- A word whose offset is zero. -/
theorem commandWord_off_zero (op : BitVec 4) (low : Half) :
    commandWord op 0 low = (op.setWidth 32 <<< 28) ||| low.setWidth 32 := by
  simp [commandWord]

/-- A word with an offset inside the frame. -/
theorem commandWord_off {off : Nat} (h : off ≤ 63) (op : BitVec 4) (low : Half) :
    commandWord op (BitVec.ofNat 6 off) low =
      (op.setWidth 32 <<< 28) ||| (BitVec.ofNat 32 off <<< 22) ||| low.setWidth 32 := by
  have hoff : (BitVec.ofNat 6 off).setWidth 32 = BitVec.ofNat 32 off := by
    apply BitVec.eq_of_toNat_eq
    simp [Nat.mod_eq_of_lt (show off < 64 by omega)]
  rw [commandWord, hoff]

theorem setWidth_lowImm8 (b : Byte) : (lowImm8 b).setWidth 32 = b.setWidth 32 :=
  BitVec.setWidth_setWidth (by decide)

theorem setWidth_lowM (apply : Bool) : (lowM apply).setWidth 32 = (BitVec.ofBool apply).setWidth 32 :=
  BitVec.setWidth_setWidth (by decide)

/-- The low half of format F with a width and a shift that fit their fields (R67). -/
theorem setWidth_lowF {width shift : Nat} (hw : width ≤ 15) (hs : shift ≤ 7) (b : Byte) :
    (lowF width shift b).setWidth 32 =
      (BitVec.ofNat 32 shift <<< 12) ||| (BitVec.ofNat 32 width <<< 8) ||| b.setWidth 32 := by
  have hmove {x k n : Nat} (hx : x < 2 ^ k) (hk : k + n ≤ 16) :
      (((BitVec.ofNat k x).setWidth 16 <<< n).setWidth 32 : Word) = BitVec.ofNat 32 x <<< n := by
    have hprod : x * 2 ^ n < 2 ^ 16 :=
      calc x * 2 ^ n < 2 ^ k * 2 ^ n := Nat.mul_lt_mul_of_pos_right hx (Nat.two_pow_pos n)
        _ = 2 ^ (k + n) := (Nat.pow_add 2 k n).symm
        _ ≤ 2 ^ 16 := Nat.pow_le_pow_right (by decide) hk
    have hx16 : x < 2 ^ 16 := (Nat.le_mul_of_pos_right x (Nat.two_pow_pos n)).trans_lt hprod
    apply BitVec.eq_of_toNat_eq
    simp only [BitVec.toNat_setWidth, BitVec.toNat_shiftLeft, BitVec.toNat_ofNat, Nat.shiftLeft_eq]
    rw [Nat.mod_eq_of_lt hx, Nat.mod_eq_of_lt hx16, Nat.mod_eq_of_lt hprod,
      Nat.mod_eq_of_lt (show x < 2 ^ 32 by omega)]
  rw [lowF, BitVec.setWidth_or, BitVec.setWidth_or, hmove (show shift < 2 ^ 3 by omega) (by decide),
    hmove (show width < 2 ^ 4 by omega) (by decide), BitVec.setWidth_setWidth (by decide)]

end Sys2Proof

/-! ### The update of the CRC (R91 to R95)

`upd c b` is eight steps of the polynomial on `c xor b` (`upd_eq_step1`), and one step is linear with a trivial kernel.
The laws of R95 and R109 to R111 follow. -/

namespace Sys2Proof.Machine

/-- Four steps are one look into the table: the high nibble indexes it, the low nibble moves up (R91, R92). -/
theorem step1_four : ∀ v : Byte, step1^[4] v = (v <<< 4) ^^^ crcTable ((v >>> 4).setWidth 4) := by decide

/-- The update is eight steps of the polynomial on `c xor b` (R94). -/
theorem upd_eq_step1 (c b : Byte) : upd c b = step1^[8] (c ^^^ b) := by
  have hfirst : step1^[4] (c ^^^ b) = (c <<< 4) ^^^ crcTable (((c ^^^ b) >>> 4).setWidth 4) ^^^ (b <<< 4) := by
    rw [step1_four, BitVec.shiftLeft_xor_distrib, BitVec.xor_assoc, BitVec.xor_comm (b <<< 4), ← BitVec.xor_assoc]
  have hindex (x : Byte) : ((x ^^^ (b <<< 4)) >>> 4).setWidth 4 = ((x >>> 4) ^^^ b).setWidth 4 := by
    apply BitVec.eq_of_getLsbD_eq
    intro n hn
    simp [hn, show 4 + n < 8 by omega, -BitVec.getLsbD_eq_getElem]
  have hshift (x : Byte) : (x ^^^ (b <<< 4)) <<< 4 = x <<< 4 := by
    apply BitVec.eq_of_getLsbD_eq
    intro n hn
    by_cases h4 : n < 4
    · simp [h4]
    · simp [hn, h4, show n - 4 < 4 by omega]
  rw [Function.iterate_add_apply step1 4 4, hfirst, step1_four, hindex, hshift]
  rfl

/-- One step is linear (R91). -/
theorem step1_xor (v w : Byte) : step1 (v ^^^ w) = step1 v ^^^ step1 w := by
  unfold step1
  rw [BitVec.shiftLeft_xor_distrib, BitVec.getLsbD_xor]
  have hpoly : ∀ p q : Bool, (if (p ^^ q) then Config.poly else 0x00) =
      (if p then Config.poly else 0x00) ^^^ (if q then Config.poly else 0x00) := by decide
  rw [hpoly]
  ac_rfl

theorem step1_iterate_xor (n : Nat) (v w : Byte) : step1^[n] (v ^^^ w) = step1^[n] v ^^^ step1^[n] w := by
  induction n generalizing v w with
  | zero => rfl
  | succ n ih => simp only [Function.iterate_succ_apply, step1_xor, ih]

/-- No byte but 0x00 is shifted to 0x00. -/
theorem step1_eq_zero : ∀ v : Byte, step1 v = 0x00 → v = 0x00 := by decide

theorem step1_injective : Function.Injective step1 := by
  intro v w h
  have hzero : step1 (v ^^^ w) = 0x00 := by
    rw [step1_xor, h, BitVec.xor_self]
    rfl
  exact BitVec.xor_eq_zero_iff.1 (step1_eq_zero _ hzero)

theorem step1_bijective : Function.Bijective step1 := Finite.injective_iff_bijective.1 step1_injective

theorem step1_iterate_zero (n : Nat) : step1^[n] 0x00 = 0x00 := Function.iterate_fixed (by decide) n

/-- `x ↦ x xor b` undoes itself. -/
theorem xor_right_bijective (b : Byte) : Function.Bijective fun c : Byte => c ^^^ b :=
  Function.Involutive.bijective fun c => by simp

/-- With its data byte fixed the update is a bijection of the accumulator (R95). -/
theorem upd_bijective_left (b : Byte) : Function.Bijective fun c => upd c b := by
  simp only [upd_eq_step1]
  exact (step1_bijective.iterate 8).comp (xor_right_bijective b)

/-- With its accumulator fixed the update is a bijection of the data byte (R95). -/
theorem upd_bijective_right (c : Byte) : Function.Bijective fun b => upd c b := by
  simp only [upd_eq_step1, BitVec.xor_comm c]
  exact (step1_bijective.iterate 8).comp (xor_right_bijective c)

/-- Feeding the value of the accumulator leaves 0x00 (R109). -/
theorem upd_self (c : Byte) : upd c c = 0x00 := by
  rw [upd_eq_step1, BitVec.xor_self]
  exact step1_iterate_zero 8

/-- Settles O14: CRC.FEED stores the update, which is eight steps on `c xor b`. -/
theorem crcFeedUpdatesAccumulator : Obligations.CrcFeedUpdatesAccumulator := by
  intro b s
  refine ⟨?_, by rw [exec_crcFeed, upd_eq_step1]⟩
  rw [encode, commandWord_off_zero, setWidth_lowImm8]
  rfl

/-- Settles O46: linearity of the eight steps, and both bijections. -/
theorem updateIsLinearAndBijective : Obligations.UpdateIsLinearAndBijective := by
  refine ⟨fun c c' b b' => ?_, upd_bijective_left, upd_bijective_right⟩
  rw [upd_eq_step1, upd_eq_step1, upd_eq_step1, ← step1_iterate_xor]
  congr 1
  ac_rfl

/-- Settles O48: `upd c` is injective and takes `c` to 0x00. -/
theorem residueIsZero : Obligations.ResidueIsZero := by
  have hzero (c r : Byte) : upd c r = 0x00 ↔ r = c :=
    ⟨fun h => (upd_bijective_right c).1 (h.trans (upd_self c).symm), fun h => h ▸ upd_self c⟩
  refine ⟨hzero, fun bs => ?_⟩
  rw [crc8_append]
  exact upd_self (crc8 bs)

/-- Settles O49: a zero accumulator fed 0x00 stays zero. -/
theorem leadingZerosAreUnseen : Obligations.LeadingZerosAreUnseen := by
  intro n bs
  induction n with
  | zero => rfl
  | succ n ih =>
    calc crc8 (List.replicate (n + 1) 0x00 ++ bs)
        = (List.replicate n 0x00 ++ bs).foldl upd (upd 0x00 0x00) := rfl
      _ = crc8 (List.replicate n 0x00 ++ bs) := by rw [upd_self]; rfl
      _ = crc8 bs := ih

/-- Bytes fed alike keep different accumulators different (R95). -/
theorem foldl_upd_injective (bs : List Byte) : Function.Injective fun c => bs.foldl upd c := by
  induction bs with
  | nil => exact Function.injective_id
  | cons b bs ih => exact ih.comp (upd_bijective_left b).1

/-- Replacing one byte of a sequence by another changes the CRC. -/
theorem crc8_set_ne {bs : List Byte} {j : Nat} {b : Byte} (hj : j < bs.length) (hb : b ≠ bs[j]) :
    crc8 (bs.set j b) ≠ crc8 bs := by
  have hsplit : bs = bs.take j ++ bs[j] :: bs.drop (j + 1) := by simp
  intro h
  rw [List.set_eq_take_append_cons_drop, if_pos hj, crc8_append] at h
  conv at h => rhs; rw [hsplit, crc8_append]
  exact hb ((upd_bijective_right _).1 (foldl_upd_injective _ h))

/-- Settles O50: a byte with one bit inverted is another byte. -/
theorem singleBitErrorIsDetected : Obligations.SingleBitErrorIsDetected := by
  intro bs j k hj hk
  rw [List.getD_eq_getElem bs 0 hj]
  refine crc8_set_ne hj fun h => ?_
  have hbit := congrArg (BitVec.getLsbD · k) h
  simp [hk, BitVec.getLsbD_ofNat, -BitVec.getLsbD_eq_getElem] at hbit

end Sys2Proof.Machine

/-! ### Comparing a received PEC (R101) -/

namespace Sys2Proof.Machine

/-- `PEC.CHECK` of the accumulator's value returns it (R101). -/
theorem exec_pecCheck_match {r : Byte} {s : State} (h : s.crc = r) :
    exec (.pecCheck r) s = .next (s.addOutcome (.ok (zext16 r))) := by
  rw [← h]
  exact if_pos rfl

/-- `PEC.CHECK` of any other value raises (R101). -/
theorem exec_pecCheck_mismatch {r : Byte} {s : State} (h : s.crc ≠ r) :
    exec (.pecCheck r) s = .next (s.addOutcome (.err ⟨.pecMismatch, .pec s.crc r⟩)) :=
  if_neg h

/-- Settles O16: the word by its fields, the outcome by the first branch of the comparison. -/
theorem pecCheckMatchReturnsAccumulator : Obligations.PecCheckMatchReturnsAccumulator := by
  refine fun r s h => ⟨?_, exec_pecCheck_match h⟩
  rw [encode, commandWord_off_zero, setWidth_lowImm8]
  rfl

/-- Settles O17: the second branch of the comparison. -/
theorem pecCheckMismatchRaises : Obligations.PecCheckMismatchRaises :=
  fun _ _ h => exec_pecCheck_mismatch h

end Sys2Proof.Machine

/-! ### Rules of the whole machine (R21, R31, R45, R48, R52, R180, R186) -/

namespace Sys2Proof.Machine

/-- Settles O35: the only effect that reports an error is the bare answer. -/
theorem errorChangesNoState : Obligations.ErrorChangesNoState :=
  fun _ _ _ _ hexec herr => (exec_effect hexec).eq_addOutcome_of_err herr

/-- Settles O37: two states of one unit run every operation alike. -/
theorem effectDependsOnUnitAlone : Obligations.EffectDependsOnUnitAlone := by
  intro i s s' hcrc hfb
  obtain ⟨c, m, o, hs, hs'⟩ := exec_alike i hcrc hfb
  exact ⟨_, _, o, hs, hs', rfl, rfl, rfl, rfl⟩

/-- Settles O38: the other twelve operations are no writers of the accumulator. -/
theorem onlyInitAndFeedWriteAccumulator : Obligations.OnlyInitAndFeedWriteAccumulator := by
  intro i s t hinit hfeed hexec
  have hw : writesCrc i = false := by
    cases i with
    | crcInit => exact absurd rfl hinit
    | crcFeed b => exact absurd rfl (hfeed b)
    | _ => rfl
  exact (exec_effect hexec).crc_eq hw

/-- Settles O39: every effect leaves the bytes that the operation may not write. -/
theorem onlyNamedBytesChange : Obligations.OnlyNamedBytesChange :=
  fun _ _ _ _ hmay hexec => (exec_effect hexec).read_eq hmay

/-- Settles O33: each access is checked before anything else the operation looks at. -/
theorem accessOutsideFrameRaises : Obligations.AccessOutsideFrameRaises := by
  intro i off n s hacc hout
  cases i with
  | crcInit | crcFeed | crcRead | pecCheck | fbClr => exact nomatch hacc
  | _ =>
    cases hacc
    exact checkOffset_outside hout s _

/-! #### The two sub-blocks -/

/-- What the result `x` goes on to, the result `y` goes on to through `f`. -/
def Carried (f : State → State) (x y : Host.Outcome State Fault Refusal) : Prop :=
  ∀ t, x = .next t → y = .next (f t)

theorem Carried.responded {f : State → State} {o : OpOutcome} {s s' : State}
    (h : s'.addOutcome o = f (s.addOutcome o)) : Carried f (respond o s) (respond o s') := by
  rintro t ⟨⟩
  exact congrArg Host.Outcome.next h

theorem Carried.ite {f : State → State} {p : Prop} [Decidable p] {x y x' y' : Host.Outcome State Fault Refusal}
    (hyes : Carried f x x') (hno : Carried f y y') : Carried f (if p then x else y) (if p then x' else y') := by
  split
  · exact hyes
  · exact hno

/-- The offset check (R48) looks at neither sub-block. -/
theorem Carried.checkOffset {f : State → State} (off n : Nat) {s s' : State} {x y : Host.Outcome State Fault Refusal}
    (hout : ∀ o, s'.addOutcome o = f (s.addOutcome o)) (hbody : Carried f x y) :
    Carried f (checkOffset off n s x) (checkOffset off n s' y) :=
  .ite hbody (.responded (hout _))

/-- A CRC operation carries any frame buffer through. -/
theorem exec_carries_fb {i : Instr} (hi : crcOperation i = true) (m : Memory) (s : State) :
    Carried (·.setFb m) (exec i s) (exec i (s.setFb m)) := by
  cases i with
  | crcInit => exact .responded rfl
  | crcFeed b => exact .responded rfl
  | crcRead => exact .responded rfl
  | pecCheck r => exact .ite (.responded rfl) (.responded rfl)
  | _ => exact nomatch hi

/-- A codec operation carries any accumulator through. -/
theorem exec_carries_crc {i : Instr} (hi : crcOperation i = false) (c : Byte) (s : State) :
    Carried (·.setCrc c) (exec i s) (exec i (s.setCrc c)) := by
  have hraise : ∀ o, (s.setCrc c).addOutcome o = (s.addOutcome o).setCrc c := fun _ => rfl
  cases i with
  | crcInit => exact nomatch hi
  | crcFeed b => exact nomatch hi
  | crcRead => exact nomatch hi
  | pecCheck r => exact nomatch hi
  | fbClr => exact .responded rfl
  | curGet off => exact .checkOffset off 1 hraise (.responded rfl)
  | curPut off mA => exact .checkOffset off 1 hraise (.ite (.responded rfl) (.ite (.responded rfl) (.responded rfl)))
  | fbWr off b => exact .checkOffset off 1 hraise (.responded rfl)
  | fbRd off => exact .checkOffset off 1 hraise (.responded rfl)
  | bfGet off width shift => exact .checkOffset off 1 hraise (.responded rfl)
  | bfPut off width shift value =>
    exact .checkOffset off 1 hraise (.ite (.responded rfl) (.ite (.responded rfl) (.responded rfl)))
  | bfMark off apply => exact .checkOffset off 1 hraise (.ite (.responded rfl) (.responded rfl))
  | le16Get off => exact .checkOffset off 2 hraise (.responded rfl)
  | le16Put off v => exact .checkOffset off 2 hraise (.responded rfl)

/-- Settles O40: each sub-block's operations carry the other's state through. -/
theorem subBlocksShareNoState : Obligations.SubBlocksShareNoState :=
  fun _ s t hexec => ⟨fun hi m => exec_carries_fb hi m s t hexec, fun hi c => exec_carries_crc hi c s t hexec⟩

/-! #### Where errors come from -/

/-- Whatever error the result `x` from `s` reports is an `InvalidParameter`. -/
def RaisesInvalidOnly (s : State) (x : Host.Outcome State Fault Refusal) : Prop :=
  ∀ t e, x = .next t → t.outcomes = s.outcomes ++ [.err e] → e.name = .invalidParameter

theorem RaisesInvalidOnly.returned (v : Half) {s u : State} (hu : u.outcomes = s.outcomes) :
    RaisesInvalidOnly s (returnOk v u) := by
  rintro t e ⟨⟩ herr
  simp [hu] at herr

theorem RaisesInvalidOnly.raised (info : ErrInfo) (s : State) :
    RaisesInvalidOnly s (raise .invalidParameter info s) := by
  rintro t e ⟨⟩ herr
  obtain rfl : (⟨.invalidParameter, info⟩ : OpError) = e := by simpa using herr
  rfl

theorem RaisesInvalidOnly.ite {s : State} {p : Prop} [Decidable p] {x y : Host.Outcome State Fault Refusal}
    (hyes : RaisesInvalidOnly s x) (hno : RaisesInvalidOnly s y) : RaisesInvalidOnly s (if p then x else y) := by
  split
  · exact hyes
  · exact hno

theorem RaisesInvalidOnly.checked (off n : Nat) {s : State} {body : Host.Outcome State Fault Refusal}
    (hbody : RaisesInvalidOnly s body) : RaisesInvalidOnly s (checkOffset off n s body) :=
  .ite hbody (.raised _ s)

/-- An operation of the codec raises `InvalidParameter` or nothing (R180). -/
theorem exec_raisesInvalidOnly {i : Instr} (hi : crcOperation i = false) (s : State) :
    RaisesInvalidOnly s (exec i s) := by
  cases i with
  | crcInit => exact nomatch hi
  | crcFeed b => exact nomatch hi
  | crcRead => exact nomatch hi
  | pecCheck r => exact nomatch hi
  | fbClr => exact .returned _ rfl
  | curGet off => exact .checked off 1 (.returned _ rfl)
  | curPut off mA => exact .checked off 1 (.ite (.raised _ s) (.ite (.raised _ s) (.returned _ rfl)))
  | fbWr off b => exact .checked off 1 (.returned _ rfl)
  | fbRd off => exact .checked off 1 (.returned _ rfl)
  | bfGet off width shift => exact .checked off 1 (.returned _ rfl)
  | bfPut off width shift value => exact .checked off 1 (.ite (.raised _ s) (.ite (.raised _ s) (.returned _ rfl)))
  | bfMark off apply => exact .checked off 1 (.ite (.raised _ s) (.returned _ rfl))
  | le16Get off => exact .checked off 2 (.returned _ rfl)
  | le16Put off v => exact .checked off 2 (.returned _ rfl)

/-- An operation that returns reports no error. -/
theorem no_error_of_returnOk {i : Instr} {s t u : State} {v : Half} {e : OpError} (hret : exec i s = returnOk v u)
    (hu : u.outcomes = s.outcomes) (hexec : exec i s = .next t) (herr : t.outcomes = s.outcomes ++ [.err e]) :
    False := by
  obtain rfl : u.addOutcome (.ok v) = t := Host.Outcome.next.inj (hret.symm.trans hexec)
  simp [hu] at herr

/-- Settles O42: three CRC operations and FB.CLR always return, PEC.CHECK raises on a mismatch, the rest raise
`InvalidParameter` alone. -/
theorem mismatchOnlyFromPecCheck : Obligations.MismatchOnlyFromPecCheck := by
  intro i s t e hexec herr
  cases hi : crcOperation i with
  | false =>
    refine .inr ⟨rfl, ?_, exec_raisesInvalidOnly hi s t e hexec herr⟩
    rintro rfl
    exact no_error_of_returnOk (exec_fbClr s) rfl hexec herr
  | true =>
    refine .inl ?_
    cases i with
    | crcInit => exact (no_error_of_returnOk (exec_crcInit s) rfl hexec herr).elim
    | crcFeed b => exact (no_error_of_returnOk (exec_crcFeed b s) rfl hexec herr).elim
    | crcRead => exact (no_error_of_returnOk (exec_crcRead s) rfl hexec herr).elim
    | pecCheck r =>
      by_cases hr : s.crc = r
      · exact (no_error_of_returnOk (exec_pecCheck_match hr) rfl hexec herr).elim
      · obtain rfl := Host.Outcome.next.inj ((exec_pecCheck_mismatch hr).symm.trans hexec)
        exact ⟨r, rfl, hr, by simpa using herr.symm⟩
    | _ => exact nomatch hi

/-! #### A program that seeds and clears first -/

/-- A CRC operation leaves the frame buffer. -/
theorem fb_eq_of_crcOperation {i : Instr} {s t : State} (hi : crcOperation i = true) (h : exec i s = .next t) :
    t.fb = s.fb := by
  have hself : t = t.setFb s.fb := Host.Outcome.next.inj (h.symm.trans (exec_carries_fb hi s.fb s t h))
  rw [hself]
  rfl

/-- A codec operation leaves the accumulator. -/
theorem crc_eq_of_codecOperation {i : Instr} {s t : State} (hi : crcOperation i = false) (h : exec i s = .next t) :
    t.crc = s.crc := by
  have hself : t = t.setCrc s.crc := Host.Outcome.next.inj (h.symm.trans (exec_carries_crc hi s.crc s t h))
  rw [hself]
  rfl

/-- Two states run an operation to one outcome where they agree on the sub-block that the operation reads; and they
agree afterwards on a sub-block that they agreed on before, or that the operation initialises. -/
theorem exec_same_outcome {i : Instr} {s s' : State} (hcrc : readsCrc i = true → s.crc = s'.crc)
    (hfb : crcOperation i = false → i ≠ .fbClr → s.fb = s'.fb) :
    ∃ t t' o, exec i s = .next t ∧ exec i s' = .next t' ∧ t.outcomes = s.outcomes ++ [o] ∧
      t'.outcomes = s'.outcomes ++ [o] ∧ (s.crc = s'.crc ∨ i = .crcInit → t.crc = t'.crc) ∧
      (s.fb = s'.fb ∨ i = .fbClr → t.fb = t'.fb) := by
  by_cases hinit : i = .crcInit
  · subst hinit
    exact ⟨_, _, .ok 0, exec_crcInit s, exec_crcInit s', rfl, rfl, fun _ => rfl, fun h => h.resolve_right nofun⟩
  by_cases hclr : i = .fbClr
  · subst hclr
    exact ⟨_, _, .ok 0, exec_fbClr s, exec_fbClr s', rfl, rfl, fun h => h.resolve_right nofun, fun _ => rfl⟩
  obtain ⟨t, ht⟩ := exec_goes_on i s
  cases hi : crcOperation i with
  | true =>
    have hreads : readsCrc i = true := by
      cases i with
      | crcInit => exact absurd rfl hinit
      | crcFeed | crcRead | pecCheck => rfl
      | _ => exact nomatch hi
    obtain ⟨c, m, o, hs, hs'⟩ := exec_alike i (s := s.setFb s'.fb) (s' := s') (hcrc hreads) rfl
    have htm : t.setFb s'.fb = _ := Host.Outcome.next.inj ((exec_carries_fb hi s'.fb s t ht).symm.trans hs)
    have hc : t.crc = c := congrArg State.crc htm
    refine ⟨t, _, o, ht, hs', congrArg State.outcomes htm, rfl, fun _ => hc, fun h => ?_⟩
    rw [fb_eq_of_crcOperation hi ht, fb_eq_of_crcOperation hi hs', h.resolve_right hclr]
  | false =>
    obtain ⟨c, m, o, hs, hs'⟩ := exec_alike i (s := s.setCrc s'.crc) (s' := s') rfl (hfb hi hclr)
    have htc : t.setCrc s'.crc = _ := Host.Outcome.next.inj ((exec_carries_crc hi s'.crc s t ht).symm.trans hs)
    have hm : t.fb = m := congrArg State.fb htc
    refine ⟨t, _, o, ht, hs', congrArg State.outcomes htc, rfl, fun h => ?_, fun _ => hm⟩
    rw [crc_eq_of_codecOperation hi ht, crc_eq_of_codecOperation hi hs', h.resolve_right hinit]

theorem seedsFirst_cons {i : Instr} {is : List Instr} :
    seedsFirst (i :: is) = true ↔ i = .crcInit ∨ (readsCrc i = false ∧ seedsFirst is = true) := by
  cases i <;> simp [seedsFirst]

theorem clearsFirst_cons {i : Instr} {is : List Instr} :
    clearsFirst (i :: is) = true ↔ i = .fbClr ∨ (crcOperation i = true ∧ clearsFirst is = true) := by
  cases i <;> simp [clearsFirst]

/-- Two states run a program to the same outcomes where each sub-block is the same in both, or is initialised by the
program before it is read (R213, R216). -/
theorem issueAll_same_outcomes {ops : List Instr} {s s' : State} (hcrc : s.crc = s'.crc ∨ seedsFirst ops = true)
    (hfb : s.fb = s'.fb ∨ clearsFirst ops = true) :
    ∃ t t' new, issueAll ops s = .next t ∧ issueAll ops s' = .next t' ∧ t.outcomes = s.outcomes ++ new ∧
      t'.outcomes = s'.outcomes ++ new := by
  induction ops generalizing s s' with
  | nil => exact ⟨s, s', [], rfl, rfl, by simp, by simp⟩
  | cons i is ih =>
    rw [seedsFirst_cons] at hcrc
    rw [clearsFirst_cons] at hfb
    have hreads : readsCrc i = true → s.crc = s'.crc := by
      intro hr
      rcases hcrc with h | rfl | ⟨h, -⟩
      · exact h
      · exact nomatch hr
      · exact nomatch h.symm.trans hr
    have hworks : crcOperation i = false → i ≠ .fbClr → s.fb = s'.fb := by
      intro hi hclr
      rcases hfb with h | h | ⟨h, -⟩
      · exact h
      · exact absurd h hclr
      · exact nomatch h.symm.trans hi
    obtain ⟨t, t', o, ht, ht', hout, hout', hcrc', hfb'⟩ := exec_same_outcome hreads hworks
    obtain ⟨u, u', new, hu, hu', hnew, hnew'⟩ := ih (s := t) (s' := t')
      (by rcases hcrc with h | h | ⟨-, h⟩ <;> simp [hcrc', h])
      (by rcases hfb with h | h | ⟨-, h⟩ <;> simp [hfb', h])
    exact ⟨u, u', o :: new, (issueAll_cons ht is).trans hu, (issueAll_cons ht' is).trans hu', by simp [hnew, hout],
      by simp [hnew', hout']⟩

/-- Settles O45: the outcomes from the reset state are those from any state. -/
theorem seededClearedProgramIgnoresStartState : Obligations.SeededClearedProgramIgnoresStartState := by
  intro ops hseed hclear
  obtain ⟨r, new, hr, hnew, -⟩ := issueAll_goes_on ops State.reset
  refine ⟨new, fun s => ?_⟩
  obtain ⟨r', t, new', hr', ht, hnew', hout⟩ :=
    issueAll_same_outcomes (s := State.reset) (s' := s) (.inr hseed) (.inr hclear)
  obtain rfl : r = r' := Host.Outcome.next.inj (hr.symm.trans hr')
  obtain rfl : new = new' := List.append_cancel_left (hnew.symm.trans hnew')
  exact ⟨t, ht, hout⟩

end Sys2Proof.Machine

/-! ### The codec operations, one by one (R130 to R136, R141 to R149)

For each operation what it answers inside the frame, every operand it accepts or refuses. -/

namespace Sys2Proof.Machine

/-! #### What an operation answers -/

section
variable {off : Nat} (h : off ≤ 63) (s : State)
include h

/-- `BF.GET` answers with the field (R143). -/
theorem exec_bfGet (width shift : Nat) :
    exec (.bfGet off width shift) s =
      .next (s.addOutcome (.ok (BitVec.ofNat 16 (getBits (s.fb.read off) width shift)))) :=
  checkOffset_inside (by omega) s _

/-- `BF.PUT` ORs a value that fits into a field that fits (R144). -/
theorem exec_bfPut {width shift : Nat} {value : Byte} (hfield : width + shift ≤ 8) (hvalue : value.toNat < 2 ^ width) :
    exec (.bfPut off width shift value) s =
      .next ((s.setFb (s.fb.write off (putBits (s.fb.read off) value width shift))).addOutcome (.ok 0)) := by
  have hf : ¬ width + shift > 8 := by omega
  have hv : ¬ value.toNat ≥ 2 ^ width := by omega
  exact (checkOffset_inside (by omega) s _).trans ((if_neg hf).trans (if_neg hv))

/-- `BF.PUT` refuses a field that runs past bit 7 (R144). -/
theorem exec_bfPut_field {width shift : Nat} (hfield : 8 < width + shift) (value : Byte) :
    exec (.bfPut off width shift value) s = .next (s.addOutcome (.err ⟨.invalidParameter, .field width shift⟩)) :=
  (checkOffset_inside (by omega) s _).trans (if_pos hfield)

/-- `BF.PUT` refuses a value too wide for its field (R144). -/
theorem exec_bfPut_value {width shift : Nat} {value : Byte} (hfield : width + shift ≤ 8)
    (hvalue : 2 ^ width ≤ value.toNat) :
    exec (.bfPut off width shift value) s =
      .next (s.addOutcome (.err ⟨.invalidParameter, .value value.toNat⟩)) := by
  have hf : ¬ width + shift > 8 := by omega
  exact (checkOffset_inside (by omega) s _).trans ((if_neg hf).trans (if_pos hvalue))

/-- `BF.MARK` stores the encoded group, unless it would mark a marked byte (R145). -/
theorem exec_bfMark {apply : Bool} (hmark : (apply && markerSet (s.fb.read off)) = false) :
    exec (.bfMark off apply) s =
      .next ((s.setFb (s.fb.write off (encGroup apply (s.fb.read off)))).addOutcome (.ok 0)) :=
  (checkOffset_inside (by omega) s _).trans (if_neg (by simp [hmark]))

/-- `BF.MARK` refuses to mark a marked byte (R145). -/
theorem exec_bfMark_marked (hmark : markerSet (s.fb.read off) = true) :
    exec (.bfMark off true) s = .next (s.addOutcome (.err ⟨.invalidParameter, .offset off⟩)) :=
  (checkOffset_inside (by omega) s _).trans (if_pos hmark)

/-- `CUR.GET` answers with the decoded current (R148). -/
theorem exec_curGet : exec (.curGet off) s = .next (s.addOutcome (.ok (curDec (s.fb.read off)))) :=
  checkOffset_inside (by omega) s _

end

/-- Bit 0 of a current says whether it is odd. -/
theorem bit0_eq_odd (mA : Half) : mA.getLsbD 0 = decide (mA.toNat % 2 = 1) := by
  rw [← BitVec.testBit_toNat, Nat.testBit_zero]

/-- `CUR.PUT` stores half of an even current up to 510 mA (R149). -/
theorem exec_curPut {off : Nat} (h : off ≤ 63) (s : State) {mA : Half} (hmax : mA.toNat ≤ 510)
    (heven : mA.toNat % 2 = 0) :
    exec (.curPut off mA) s = .next ((s.setFb (s.fb.write off (curEnc mA))).addOutcome (.ok 0)) := by
  have hm : ¬ mA.toNat > 510 := by omega
  have he : ¬ mA.getLsbD 0 = true := by simp [bit0_eq_odd, heven, -BitVec.getLsbD_eq_getElem]
  exact (checkOffset_inside (by omega) s _).trans ((if_neg hm).trans (if_neg he))

/-- A byte written through `FB` and answered with `ok(0)`. -/
theorem storesByte_write (s : State) (off : Nat) (b : Byte) :
    StoresByte s ((s.setFb (s.fb.write off b)).addOutcome (.ok 0)) off b :=
  ⟨Memory.read_write_same s.fb off b, fun _ ha => Memory.read_write_ne s.fb off b ha, rfl, rfl, rfl⟩

/-! #### Single bytes and fields -/

/-- Settles O20: FB.WR is one write of the memory. -/
theorem fbWrStoresTheByte : Obligations.FbWrStoresTheByte := by
  refine fun off b s h => ⟨?_, _, exec_fbWr h b s, storesByte_write s off b⟩
  rw [encode, commandWord_off h, setWidth_lowImm8]
  rfl

/-- Settles O21: FB.RD is one read of the memory. -/
theorem fbRdReturnsTheByte : Obligations.FbRdReturnsTheByte := by
  refine fun off s h => ⟨?_, exec_fbRd h s⟩
  rw [encode, commandWord_off h]
  exact BitVec.or_zero

/-- Settles O22: the field as a quotient and a remainder is `getBits_eq`. -/
theorem bfGetReturnsTheField : Obligations.BfGetReturnsTheField := by
  refine fun off width shift s h => ⟨fun hw hs => ?_, by rw [exec_bfGet h, getBits_eq]⟩
  rw [encode, commandWord_off h, setWidth_lowF hw hs, ← BitVec.or_assoc, ← BitVec.or_assoc]
  exact BitVec.or_zero

/-- A byte shifted left is its multiple, cut to a byte. -/
theorem byte_shiftLeft_eq (value : Byte) (shift : Nat) :
    value <<< shift = BitVec.ofNat 8 (value.toNat * 2 ^ shift) := by
  apply BitVec.eq_of_toNat_eq
  rw [BitVec.toNat_shiftLeft, BitVec.toNat_ofNat, Nat.shiftLeft_eq]

/-- Settles O23: BF.PUT writes `putBits` of the byte, which ORs the multiple in. -/
theorem bfPutOrsTheValueIn : Obligations.BfPutOrsTheValueIn := by
  intro off width shift value s h hfield hvalue
  refine ⟨fun hs => ?_, _, exec_bfPut h s hfield hvalue, ?_⟩
  · rw [encode, commandWord_off h, setWidth_lowF (by omega) hs, ← BitVec.or_assoc, ← BitVec.or_assoc]
    rfl
  · rw [← byte_shiftLeft_eq]
    exact storesByte_write s off _

/-- Settles O24: the check of the field comes before the check of the value. -/
theorem bfPutRefusesWhatDoesNotFit : Obligations.BfPutRefusesWhatDoesNotFit :=
  fun _ _ _ value s h => ⟨fun hf => exec_bfPut_field h s hf value, fun hf hv => exec_bfPut_value h s hf hv⟩

/-- The marker is the bit of weight 128 (R132). -/
theorem markerSet_eq : ∀ b : Byte, markerSet b = decide (128 ≤ b.toNat) := by decide

/-- Marking an unmarked byte adds 128. -/
theorem encGroup_of_lt : ∀ b : Byte, b.toNat < 128 → encGroup true b = BitVec.ofNat 8 (128 + b.toNat) := by decide

/-- Settles O25: BF.MARK writes `encGroup` of the byte, without a check where it blanks. -/
theorem bfMarkMarksOrBlanks : Obligations.BfMarkMarksOrBlanks := by
  intro off s h
  refine ⟨?_, ?_, ⟨_, exec_bfMark h s rfl, storesByte_write s off _⟩, fun hlt => ⟨_, exec_bfMark h s ?_, ?_⟩⟩
  · rw [encode, commandWord_off h, setWidth_lowM]
    rfl
  · rw [encode, commandWord_off h, setWidth_lowM]
    exact BitVec.or_zero
  · simpa [markerSet_eq] using hlt
  · rw [encGroup_of_lt _ hlt]
    exact storesByte_write s off _

/-- Settles O26: a byte from 128 on has its marker set. -/
theorem bfMarkRefusesSecondMark : Obligations.BfMarkRefusesSecondMark :=
  fun off s h hge => exec_bfMark_marked h s (by simpa [markerSet_eq] using hge)

/-! #### Pairs -/

/-- Settles O27: a pair is its low byte and 256 times its high byte. -/
theorem le16GetReturnsThePair : Obligations.Le16GetReturnsThePair := by
  intro off s h
  refine ⟨?_, ?_⟩
  · rw [encode, commandWord_off (by omega)]
    exact BitVec.or_zero
  · rw [exec_le16Get h, ← toNat_le16dec, BitVec.ofNat_toNat, BitVec.setWidth_eq]

/-- A store of a pair leaves the bytes beside it. -/
theorem read_writeSeq_le16enc_ne (m : Memory) {off a : Nat} (v : Half) (hlo : a ≠ off) (hhi : a ≠ off + 1) :
    (m.writeSeq off (le16enc v)).read a = m.read a := by
  rw [Memory.read_writeSeq, if_neg]
  simp only [le16enc, List.length_cons, List.length_nil]
  omega

theorem low_byte_eq (v : Half) : v.extractLsb' 0 8 = BitVec.ofNat 8 (v.toNat % 256) := by
  apply BitVec.eq_of_toNat_eq
  simp

theorem high_byte_eq (v : Half) : v.extractLsb' 8 8 = BitVec.ofNat 8 (v.toNat / 256) := by
  apply BitVec.eq_of_toNat_eq
  simp [Nat.shiftRight_eq_div_pow]

/-- Settles O28: LE16.PUT writes the two bytes of its value. -/
theorem le16PutStoresThePair : Obligations.Le16PutStoresThePair := by
  intro off v s h
  refine ⟨?_, _, exec_le16Put h v s, ?_, ?_, fun a hlo hhi => ?_, rfl, rfl, rfl⟩
  · rw [encode, commandWord_off (by omega)]
    rfl
  · exact (read_writeSeq_le16enc_low s.fb off v).trans (low_byte_eq v)
  · exact (read_writeSeq_le16enc_high s.fb off v).trans (high_byte_eq v)
  · exact read_writeSeq_le16enc_ne s.fb v hlo hhi

/-! #### Currents -/

/-- Settles O30: doubling a byte does not wrap. -/
theorem curGetDoublesTheByte : Obligations.CurGetDoublesTheByte := by
  intro off s h
  refine ⟨?_, _, toNat_curDec (s.fb.read off), exec_curGet h s⟩
  rw [encode, commandWord_off h]
  exact BitVec.or_zero

/-- An even current up to 510 mA is decoded from its half. -/
theorem curDec_curEnc {mA : Half} (hmax : mA.toNat ≤ 510) (heven : mA.toNat % 2 = 0) : curDec (curEnc mA) = mA := by
  apply BitVec.eq_of_toNat_eq
  rw [toNat_curDec, toNat_curEnc]
  omega

/-- Settles O31: CUR.PUT writes the half, from which CUR.GET decodes the current. -/
theorem curPutStoresHalf : Obligations.CurPutStoresHalf := by
  intro off mA s h hmax heven
  have hhalf : curEnc mA = BitVec.ofNat 8 (mA.toNat / 2) := by
    apply BitVec.eq_of_toNat_eq
    rw [toNat_curEnc, BitVec.toNat_ofNat]
  refine ⟨?_, _, exec_curPut h s hmax heven, hhalf ▸ storesByte_write s off _, _, exec_curGet h _, ?_⟩
  · rw [encode, commandWord_off h]
    rfl
  · simp [curDec_curEnc hmax heven]

/-- Settles O32: both checks report the current. -/
theorem curPutRefusesOddOrLarge : Obligations.CurPutRefusesOddOrLarge := by
  intro off mA s h hbad
  refine (checkOffset_inside (by omega) s _).trans ?_
  by_cases hmax : mA.toNat > 510
  · exact if_pos hmax
  · have hodd : mA.getLsbD 0 = true := by
      rw [bit0_eq_odd, decide_eq_true_eq]
      omega
    exact (if_neg hmax).trans (if_pos hodd)

/-! #### The laws of fields (R131) -/

/-- A value that fits its field has no bit above it. -/
theorem getLsbD_eq_false_of_lt {v : Byte} {width n : Nat} (hv : v.toNat < 2 ^ width) (hn : width ≤ n) :
    v.getLsbD n = false := by
  rw [← BitVec.testBit_toNat]
  exact Nat.testBit_lt_two_pow (hv.trans_le (Nat.pow_le_pow_right (by decide) hn))

/-- Two bytes with the same bits in a field hold the same value there. -/
theorem getBits_congr {b b' : Byte} {width shift : Nat}
    (h : ∀ j < width, b.getLsbD (shift + j) = b'.getLsbD (shift + j)) :
    getBits b width shift = getBits b' width shift := by
  apply Nat.eq_of_testBit_eq
  intro j
  rw [testBit_getBits, testBit_getBits]
  by_cases hj : j < width
  · rw [h j hj]
  · simp [hj]

/-- A field put into zeros reads back. -/
theorem getBits_putBits_same {acc v : Byte} {width shift : Nat} (hfield : width + shift ≤ 8) (hv : v.toNat < 2 ^ width)
    (hzero : getBits acc width shift = 0) : getBits (putBits acc v width shift) width shift = v.toNat := by
  apply Nat.eq_of_testBit_eq
  intro j
  rw [testBit_getBits, getLsbD_putBits, BitVec.testBit_toNat]
  by_cases hj : j < width
  · have hacc : acc.getLsbD (shift + j) = false := by
      have hbit := testBit_getBits acc width shift j
      rwa [hzero, Nat.zero_testBit, decide_eq_true hj, Bool.true_and, eq_comm] at hbit
    rw [hacc]
    simp [hj, show shift + j < 8 by omega]
  · simp [hj, getLsbD_eq_false_of_lt hv (Nat.le_of_not_lt hj)]

/-- Outside its field `putBits` changes no bit. -/
theorem getLsbD_putBits_outside {acc v : Byte} {width shift n : Nat} (hv : v.toNat < 2 ^ width)
    (hn : n < shift ∨ shift + width ≤ n) : (putBits acc v width shift).getLsbD n = acc.getLsbD n := by
  rw [getLsbD_putBits]
  rcases hn with hlo | hhi
  · simp [hlo]
  · simp [getLsbD_eq_false_of_lt hv (show width ≤ n - shift by omega)]

/-- Settles O51: read back, no bit changed outside the field, and OR in either order. -/
theorem putFieldReadsBack : Obligations.PutFieldReadsBack := by
  intro acc v width shift hfield hv
  refine ⟨getBits_putBits_same hfield hv, fun width' shift' hdisj => ?_, fun v' width' shift' => ?_⟩
  · exact getBits_congr fun j hj => getLsbD_putBits_outside hv (by omega)
  · simp only [putBits]
    ac_rfl

end Sys2Proof.Machine

/-! ### Operations that all return `ok(0)`

An expansion none of whose operations ends in an error is issued whole, so that a run up to the first error is the run
of the program (R222). -/

namespace Sys2Proof.Machine

/-- The operations go through from `s` to `t`, each with the outcome `ok(0)`. -/
structure Completes (ops : List Instr) (s t : State) : Prop where
  run : issueAll ops s = .next t
  outcomes : t.outcomes = s.outcomes ++ List.replicate ops.length (.ok 0)

theorem Completes.nil (s : State) : Completes [] s s := ⟨rfl, by simp⟩

theorem Completes.append {ops ops' : List Instr} {s t u : State} (h : Completes ops s t) (h' : Completes ops' t u) :
    Completes (ops ++ ops') s u where
  run := (issueAll_append h.run ops').trans h'.run
  outcomes := by rw [h'.outcomes, h.outcomes, List.append_assoc, ← List.replicate_add, List.length_append]

/-- One operation that returns `ok(0)`. -/
theorem Completes.single {i : Instr} {s u : State} (h : exec i s = .next (u.addOutcome (.ok 0)))
    (hu : u.outcomes = s.outcomes) : Completes [i] s (u.addOutcome (.ok 0)) where
  run := issueAll_cons h []
  outcomes := by simp [hu]

/-- A first operation that returns `ok(0)`. -/
theorem Completes.cons {i : Instr} {ops : List Instr} {s u t : State} (h : exec i s = .next (u.addOutcome (.ok 0)))
    (hu : u.outcomes = s.outcomes) (h' : Completes ops (u.addOutcome (.ok 0)) t) : Completes (i :: ops) s t :=
  (Completes.single h hu).append h'

/-- A run goes past an operation without an error. -/
theorem issueUntilErr_cons {i : Instr} {s t : State} (h : exec i s = .next t) (hok : t.lastOutcome.isErr = false)
    (is : List Instr) : issueUntilErr (i :: is) s = issueUntilErr is t := by
  simp [issueUntilErr, h, hok]

theorem issueUntilErr_single {i : Instr} {s t : State} (h : exec i s = .next t) : issueUntilErr [i] s = .next t := by
  simp [issueUntilErr, h]

/-- A run goes past operations that all return `ok(0)`. -/
theorem Completes.issueUntilErr_append {ops : List Instr} {s t : State} (h : Completes ops s t) (ops' : List Instr) :
    issueUntilErr (ops ++ ops') s = issueUntilErr ops' t := by
  induction ops generalizing s with
  | nil =>
    obtain rfl : s = t := Host.Outcome.next.inj h.run
    rfl
  | cons i is ih =>
    obtain ⟨u, hu⟩ := exec_goes_on i s
    obtain ⟨o, ho, -⟩ := (exec_effect hu).adds_one_outcome
    have hrun : issueAll is u = .next t := issueAll_cons hu is ▸ h.run
    obtain ⟨t', new, ht', hnew, -⟩ := issueAll_goes_on is u
    obtain rfl : t = t' := Host.Outcome.next.inj (hrun.symm.trans ht')
    have hall : o :: new = .ok 0 :: List.replicate is.length (.ok 0) := by
      have hout := h.outcomes
      rw [hnew, ho, List.append_assoc, List.singleton_append, List.length_cons, List.replicate_succ] at hout
      exact List.append_cancel_left hout
    obtain ⟨rfl, rfl⟩ := List.cons.inj hall
    rw [List.cons_append, issueUntilErr_cons hu (by simp [State.lastOutcome, ho, OpOutcome.isErr]), ih ⟨hrun, hnew⟩]

theorem Completes.issueUntilErr {ops : List Instr} {s t : State} (h : Completes ops s t) :
    issueUntilErr ops s = .next t := by
  have happend := h.issueUntilErr_append []
  rwa [List.append_nil] at happend

/-- No operation takes anything from the host. -/
theorem Completes.pending {ops : List Instr} {s t : State} (h : Completes ops s t) : t.pending = s.pending := by
  refine issueAll_keeps State.pending (fun i _ u v huv => ?_) h.run
  obtain ⟨_, -, hpend⟩ := (exec_effect huv).adds_one_outcome
  exact hpend

/-- Operations of the codec leave the accumulator. -/
theorem Completes.crc {ops : List Instr} {s t : State} (h : Completes ops s t)
    (hops : ∀ i ∈ ops, crcOperation i = false) : t.crc = s.crc :=
  issueAll_keeps State.crc (fun i hi _ _ huv => crc_eq_of_codecOperation (hops i hi) huv) h.run

/-- Operations of the CRC engine leave the frame buffer. -/
theorem Completes.fb {ops : List Instr} {s t : State} (h : Completes ops s t)
    (hops : ∀ i ∈ ops, crcOperation i = true) : t.fb = s.fb :=
  issueAll_keeps State.fb (fun i hi _ _ huv => fb_eq_of_crcOperation (hops i hi) huv) h.run

end Sys2Proof.Machine

/-! ### The PEC transactions (R102, R103, R108) -/

namespace Sys2Proof.Machine

/-- Seeding and feeding leaves the CRC in the accumulator. -/
theorem feeds_complete (bs : List Byte) (s : State) :
    ∃ t, Completes (.crcInit :: bs.map .crcFeed) s t ∧ t.crc = crc8 bs ∧ t.fb = s.fb := by
  have hfeeds := issueAll_crcFeed_map_of_seed (s := (s.setCrc 0x00).addOutcome (.ok 0)) rfl bs
  exact ⟨_, .cons (exec_crcInit s) rfl ⟨hfeeds, by simp [State.addOutcomes]⟩, rfl, rfl⟩

/-- Settles O47: both runs leave the CRC of the sequence in the accumulator, which is what is read and compared. -/
theorem pecOfSequenceMatchesSequence : Obligations.PecOfSequenceMatchesSequence := by
  intro bs s s' t p hrun hlast
  obtain ⟨-, -, hread, -⟩ := crcReadReturnsAccumulator
  obtain ⟨t₀, ht₀, hp⟩ := hread s bs
  obtain rfl : t = t₀ := Host.Outcome.next.inj (hrun.symm.trans ht₀)
  obtain rfl : p = (crc8 bs).setWidth 16 := OpOutcome.ok.inj (hlast.symm.trans hp)
  obtain ⟨u, hu, hcrc, -⟩ := feeds_complete bs s'
  have hcheck := exec_pecCheck_match (r := ((crc8 bs).setWidth 16).setWidth 8) (s := u) (by simp [hcrc])
  refine ⟨_, (issueAll_append hu.run _).trans (issueAll_cons hcheck []), ?_⟩
  simp [zext16]

/-! #### The host's checks -/

section
variable {α : Type} {rest : Except OpError α}

theorem checkAddress_passes {a7 : Nat} (h : a7 ≤ 127) : checkAddress a7 rest = rest :=
  if_pos (Nat.lt_succ_of_le h)

theorem checkAddress_refuses {a7 : Nat} (h : 127 < a7) :
    checkAddress a7 rest = .error ⟨.invalidParameter, .address a7⟩ :=
  if_neg (Nat.not_lt.2 h)

theorem checkLength_passes {n : Nat} (h : n ≤ 65534) : checkLength n rest = rest := if_pos h

theorem checkLength_refuses {n : Nat} (h : 65534 < n) :
    checkLength n rest = .error ⟨.invalidParameter, .length n⟩ :=
  if_neg (Nat.not_le.2 h)

end

/-- A refused PEC.WRGEN issues nothing. -/
theorem runPecWrgen_error {a7 : Nat} {payload : List Byte} {e : OpError} (h : pecWrgen a7 payload = .error e)
    (s : State) : runPecWrgen a7 payload s = (s, .error e) := by
  simp [runPecWrgen, h]

/-- A refused PEC.RDCHK issues nothing. -/
theorem runPecRdchk_error {a7 : Nat} {reg : Byte} {n : Nat} {received : List Byte} {e : OpError}
    (h : pecRdchk a7 reg n received = .error e) (s : State) : runPecRdchk a7 reg n received s = (s, .error e) := by
  simp [runPecRdchk, h]

/-- A wrong number of received bytes is refused, none among them (R183). -/
theorem pecRdchk_shape {a7 : Nat} {reg : Byte} {n : Nat} {received : List Byte} (ha : a7 ≤ 127) (hn : n ≤ 65534)
    (hm : received.length ≠ n + 1) :
    pecRdchk a7 reg n received = .error ⟨.unexpectedResponseShape, .received received.length⟩ := by
  rw [pecRdchk, checkAddress_passes ha, checkLength_passes hn]
  cases hlast : received.getLast? with
  | none => rw [List.getLast?_eq_none_iff.1 hlast, List.length_nil]
  | some pec => exact if_neg hm

/-- Settles O54: each check is made before the next and before any operation. -/
theorem pecHostChecksComeFirst : Obligations.PecHostChecksComeFirst := by
  refine fun a7 n reg bs s => ⟨fun ha => ⟨runPecWrgen_error (checkAddress_refuses ha) s,
    runPecRdchk_error (checkAddress_refuses ha) s⟩, fun ha hlen => runPecWrgen_error ?_ s,
    fun ha hn => runPecRdchk_error ?_ s, fun ha hn hm => runPecRdchk_error (pecRdchk_shape ha hn hm) s⟩
  · exact (checkAddress_passes ha).trans (checkLength_refuses hlen)
  · exact (checkAddress_passes ha).trans (checkLength_refuses hn)

/-! #### What goes on the bus and what comes back -/

/-- The address byte of a write is twice the address (R100). -/
theorem addrW_eq (a7 : Nat) : addrW a7 = BitVec.ofNat 8 (2 * a7) := by
  apply BitVec.eq_of_toNat_eq
  rw [addrW, BitVec.toNat_shiftLeft, BitVec.toNat_ofNat, BitVec.toNat_ofNat, Nat.shiftLeft_eq]
  omega

/-- The address byte of a read is one more (R100). -/
theorem addrR_eq (a7 : Nat) : addrR a7 = BitVec.ofNat 8 (2 * a7 + 1) := by
  have hbit0 : ∀ b : Byte, (b <<< 1) ||| (0x01 : Byte) = (b <<< 1) + (0x01 : Byte) := by decide
  rw [addrR, hbit0, show BitVec.ofNat 8 a7 <<< 1 = addrW a7 from rfl, addrW_eq]
  exact (BitVec.ofNat_add _ _).symm

/-- A PEC.WRGEN that goes through puts the payload and the last value on the bus. -/
theorem runPecWrgen_ok {a7 : Nat} {payload : List Byte} {ops : List Instr} {s t : State} {v : Half}
    (hops : pecWrgen a7 payload = .ok ops) (hrun : issueUntilErr ops s = .next (t.addOutcome (.ok v))) :
    runPecWrgen a7 payload s = (t.addOutcome (.ok v), .ok (payload ++ [v.setWidth 8])) := by
  simp [runPecWrgen, hops, hrun, stateAfter]

section
variable {a7 n : Nat} {reg : Byte} {received : List Byte} {ops : List Instr} {s t : State}

/-- A PEC.RDCHK that goes through hands over the data. -/
theorem runPecRdchk_ok {v : Half} (hops : pecRdchk a7 reg n received = .ok ops)
    (hrun : issueUntilErr ops s = .next (t.addOutcome (.ok v))) :
    runPecRdchk a7 reg n received s = (t.addOutcome (.ok v), .ok received.dropLast) := by
  simp [runPecRdchk, hops, hrun, stateAfter]

/-- A PEC.RDCHK that ends in an error hands over the error alone (R184). -/
theorem runPecRdchk_err {e : OpError} (hops : pecRdchk a7 reg n received = .ok ops)
    (hrun : issueUntilErr ops s = .next (t.addOutcome (.err e))) :
    runPecRdchk a7 reg n received s = (t.addOutcome (.err e), .error e) := by
  simp [runPecRdchk, hops, hrun, stateAfter]

end

/-- Settles O52: the operations seed, feed the address byte and the payload, and read the CRC. -/
theorem pecWrgenAppendsPec : Obligations.PecWrgenAppendsPec := by
  intro a7 payload s ha hlen
  have hops : pecWrgen a7 payload =
      .ok ((.crcInit :: (addrW a7 :: payload).map .crcFeed) ++ [.crcRead]) :=
    (checkAddress_passes ha).trans (checkLength_passes hlen)
  obtain ⟨t, ht, hcrc, hfb⟩ := feeds_complete (addrW a7 :: payload) s
  have hrun := (ht.issueUntilErr_append [.crcRead]).trans (issueUntilErr_single (exec_crcRead t))
  rw [runPecWrgen_ok hops hrun, hcrc, addrW_eq]
  exact ⟨by simp [zext16], hfb⟩

/-- Settles O53: the operations seed, feed the two address bytes, the register and the data, and compare the CRC. -/
theorem pecRdchkAcceptsExactlyRightPec : Obligations.PecRdchkAcceptsExactlyRightPec := by
  intro a7 reg pec data s ha hlen
  have hops : pecRdchk a7 reg data.length (data ++ [pec]) =
      .ok ((.crcInit :: (addrW a7 :: reg :: addrR a7 :: data).map .crcFeed) ++ [.pecCheck pec]) := by
    rw [pecRdchk, checkAddress_passes ha, checkLength_passes hlen]
    simp
  obtain ⟨t, ht, hcrc, hfb⟩ := feeds_complete (addrW a7 :: reg :: addrR a7 :: data) s
  have hrun := ht.issueUntilErr_append [.pecCheck pec]
  rw [← addrW_eq, ← addrR_eq, ← hcrc]
  by_cases hpec : t.crc = pec
  · rw [issueUntilErr_single (exec_pecCheck_match hpec)] at hrun
    rw [runPecRdchk_ok hops hrun]
    exact ⟨by simp [hpec], hfb⟩
  · rw [issueUntilErr_single (exec_pecCheck_mismatch hpec)] at hrun
    rw [runPecRdchk_err hops hrun]
    exact ⟨by simp [hpec], hfb⟩

end Sys2Proof.Machine

/-! ### The fields of one byte (R131, R132, R137, R150 to R153)

The operations of a group and of a pin triple work on one byte. `Builds` follows that byte through them, and
`getBits_groupBits` reads the fields back from it. -/

namespace Sys2Proof.Machine

/-! #### The bits of a group -/

/-- The value of a field at its place in the byte. -/
def GroupField.placed (f : GroupField) : Byte := BitVec.ofNat 8 f.value <<< f.shift

/-- The field lies in its byte and its value in the field: what `BF.PUT` asks for (R144). -/
structure GroupField.Fits (f : GroupField) : Prop where
  field : f.width + f.shift ≤ 8
  value : f.value < 2 ^ f.width

theorem GroupField.fits_mk {field : ConfigField} {width shift value : Nat} (hfield : width + shift ≤ 8)
    (hvalue : value < 2 ^ width) : GroupField.Fits ⟨field, width, shift, value⟩ :=
  ⟨hfield, hvalue⟩

theorem GroupField.Fits.toNat_value {f : GroupField} (h : f.Fits) : (BitVec.ofNat 8 f.value).toNat = f.value := by
  have hle : 2 ^ f.width ≤ 2 ^ 8 := Nat.pow_le_pow_right (by decide) (by have := h.field; omega)
  rw [BitVec.toNat_ofNat, Nat.mod_eq_of_lt (h.value.trans_le hle)]

theorem GroupField.placed_eq_putBits (f : GroupField) :
    f.placed = putBits 0 (BitVec.ofNat 8 f.value) f.width f.shift :=
  BitVec.zero_or.symm

/-- A placed value has no bit outside its field. -/
theorem GroupField.Fits.getLsbD_placed_outside {f : GroupField} (h : f.Fits) {n : Nat}
    (hn : n < f.shift ∨ f.shift + f.width ≤ n) : f.placed.getLsbD n = false := by
  rw [f.placed_eq_putBits, getLsbD_putBits_outside (h.toNat_value.symm ▸ h.value) hn]
  simp

/-- A placed value is read back from its field. -/
theorem GroupField.Fits.getBits_placed {f : GroupField} (h : f.Fits) : getBits f.placed f.width f.shift = f.value := by
  rw [f.placed_eq_putBits, getBits_putBits_same h.field (h.toNat_value.symm ▸ h.value) (by simp [getBits_eq]),
    h.toNat_value]

@[simp] theorem groupBits_nil : groupBits [] = 0 := rfl

/-- Combining starts from any byte. -/
theorem foldl_placed (fs : List GroupField) (b : Byte) :
    fs.foldl (fun acc f => acc ||| f.placed) b = b ||| groupBits fs := by
  induction fs generalizing b with
  | nil => exact BitVec.or_zero.symm
  | cons f fs ih =>
    have hgroup : groupBits (f :: fs) = f.placed ||| groupBits fs :=
      (ih _).trans (by simp [GroupField.placed])
    rw [List.foldl_cons, ih, hgroup, BitVec.or_assoc]

theorem groupBits_cons (f : GroupField) (fs : List GroupField) : groupBits (f :: fs) = f.placed ||| groupBits fs :=
  (foldl_placed fs _).trans (by simp [GroupField.placed])

theorem groupBits_append (fs gs : List GroupField) : groupBits (fs ++ gs) = groupBits fs ||| groupBits gs := by
  rw [← foldl_placed gs (groupBits fs)]
  exact List.foldl_append

/-- A bit of a group outside all of its fields is 0. -/
theorem getLsbD_groupBits_outside {fs : List GroupField} (hfits : ∀ f ∈ fs, f.Fits) {n : Nat}
    (hn : ∀ f ∈ fs, n < f.shift ∨ f.shift + f.width ≤ n) : (groupBits fs).getLsbD n = false := by
  induction fs with
  | nil => simp
  | cons f fs ih =>
    rw [List.forall_mem_cons] at hfits hn
    rw [groupBits_cons, BitVec.getLsbD_or, hfits.1.getLsbD_placed_outside hn.1, ih hfits.2 hn.2, Bool.or_self]

/-- A bit inside a field is outside every field that shares no bit with it. -/
theorem GroupField.outside_of_disjoint {f g : GroupField} (h : f.disjoint g = true) {j : Nat} (hj : j < f.width) :
    f.shift + j < g.shift ∨ g.shift + g.width ≤ f.shift + j := by
  simp only [disjoint, Bool.or_eq_true, decide_eq_true_eq] at h
  omega

/-- Every field of a group is read back, where no two share a bit (R131). -/
theorem getBits_groupBits {fs : List GroupField} (hfits : ∀ f ∈ fs, f.Fits)
    (hdisj : fs.Pairwise fun f g => f.disjoint g = true) {f : GroupField} (hf : f ∈ fs) :
    getBits (groupBits fs) f.width f.shift = f.value := by
  obtain ⟨before, after, rfl⟩ := List.append_of_mem hf
  rw [List.pairwise_append, List.pairwise_cons] at hdisj
  obtain ⟨-, ⟨hafter, -⟩, hbefore⟩ := hdisj
  have houtside {gs : List GroupField} (hgs : ∀ g ∈ gs, g.Fits ∧ f.disjoint g = true) {j : Nat} (hj : j < f.width) :
      (groupBits gs).getLsbD (f.shift + j) = false :=
    getLsbD_groupBits_outside (fun g hg => (hgs g hg).1) fun g hg => GroupField.outside_of_disjoint (hgs g hg).2 hj
  rw [← (hfits f hf).getBits_placed]
  refine getBits_congr fun j hj => ?_
  rw [groupBits_append, groupBits_cons, BitVec.getLsbD_or, BitVec.getLsbD_or,
    houtside (fun g hg => ⟨hfits g (by simp [hg]), GroupField.disjoint_comm g f ▸ hbefore g hg f (by simp)⟩) hj,
    houtside (fun g hg => ⟨hfits g (by simp [hg]), hafter g hg⟩) hj, Bool.false_or, Bool.or_false]

/-! #### Building one byte -/

/-- The operations go through from `s` to `t` and make the byte at `off` into `b`; no other byte changes. -/
structure Builds (ops : List Instr) (off : Nat) (b : Byte) (s t : State) : Prop extends Completes ops s t where
  byte : t.fb.read off = b
  frame : ∀ a, a ≠ off → t.fb.read a = s.fb.read a

theorem Builds.append {ops ops' : List Instr} {off : Nat} {b b' : Byte} {s t u : State} (h : Builds ops off b s t)
    (h' : Builds ops' off b' t u) : Builds (ops ++ ops') off b' s u where
  toCompletes := h.toCompletes.append h'.toCompletes
  byte := h'.byte
  frame a ha := (h'.frame a ha).trans (h.frame a ha)

/-- One operation that writes the byte. -/
theorem Builds.write {i : Instr} {off : Nat} {b : Byte} {s : State}
    (h : exec i s = .next ((s.setFb (s.fb.write off b)).addOutcome (.ok 0))) :
    Builds [i] off b s ((s.setFb (s.fb.write off b)).addOutcome (.ok 0)) where
  toCompletes := .single h rfl
  byte := Memory.read_write_same s.fb off b
  frame _ ha := Memory.read_write_ne s.fb off b ha

/-- Putting fields ORs their bits into the byte (R144). -/
theorem putOps_build {off : Nat} (hoff : off ≤ 63) {fs : List GroupField} (hfits : ∀ f ∈ fs, f.Fits) (s : State) :
    ∃ t, Builds (fs.map (GroupField.putOp off)) off (s.fb.read off ||| groupBits fs) s t := by
  induction fs generalizing s with
  | nil => exact ⟨s, .nil s, by simp, fun _ _ => rfl⟩
  | cons f fs ih =>
    rw [List.forall_mem_cons] at hfits
    obtain ⟨hf, hfs⟩ := hfits
    have hput := Builds.write (exec_bfPut hoff s hf.field (hf.toNat_value.symm ▸ hf.value))
    obtain ⟨t, ht⟩ := ih hfs ((s.setFb (s.fb.write off _)).addOutcome (.ok 0))
    rw [hput.byte, show putBits (s.fb.read off) (BitVec.ofNat 8 f.value) f.width f.shift = _ ||| f.placed from rfl,
      BitVec.or_assoc, ← groupBits_cons] at ht
    exact ⟨t, hput.append ht⟩

/-- Below bit 7 the fields of a group leave its marker clear. -/
theorem markerSet_groupBits {fs : List GroupField} (hfits : ∀ f ∈ fs, f.Fits)
    (hbelow : ∀ f ∈ fs, f.width + f.shift ≤ 7) : markerSet (groupBits fs) = false :=
  getLsbD_groupBits_outside hfits fun f hf => .inr (by have := hbelow f hf; omega)

/-- What the host's checks of the fields of a byte ensure (R153). -/
theorem fieldsCheck_facts {bits : Nat} {modes : InterruptCoding} {fs : List GroupField} (hbits : bits ≤ 8)
    (h : fieldsCheck bits modes fs = none) :
    (∀ f ∈ fs, f.Fits) ∧ (∀ f ∈ fs, f.width + f.shift ≤ bits) ∧ fs.Pairwise fun f g => f.disjoint g = true := by
  obtain ⟨hfs, hdisj⟩ := fieldsCheck_eq_none.1 h
  exact ⟨fun f hf => ⟨(hfs f hf).1.trans hbits, (hfs f hf).2.1⟩, fun f hf => (hfs f hf).1, hdisj⟩

/-- `GRP.ENC` makes its byte into `encGroup` of the group's bits (R153). -/
theorem grpOps_build {off : Nat} (hoff : off ≤ 63) {modes : InterruptCoding} {fs : List GroupField}
    (hcheck : grpCheck modes fs = none) (apply : Bool) (s : State) :
    ∃ t, Builds (grpOps off apply fs) off (encGroup apply (groupBits fs)) s t := by
  obtain ⟨hfits, hbelow, -⟩ := fieldsCheck_facts (by decide) hcheck
  have hclear := Builds.write (exec_fbWr hoff 0x00 s)
  obtain ⟨t, ht⟩ := putOps_build hoff hfits ((s.setFb (s.fb.write off 0x00)).addOutcome (.ok 0))
  rw [hclear.byte, show 0x00 ||| groupBits fs = groupBits fs from BitVec.zero_or] at ht
  have hmark := Builds.write (exec_bfMark hoff t (apply := apply) (by simp [ht.byte, markerSet_groupBits hfits hbelow]))
  rw [ht.byte] at hmark
  exact ⟨_, hclear.append (ht.append hmark)⟩

/-- An operation with an access to the frame buffer is one of the codec's. -/
theorem crcOperation_of_access {i : Instr} {x : Nat × Nat} (h : accessOf i = some x) : crcOperation i = false := by
  cases i with
  | crcInit | crcFeed | crcRead | pecCheck | fbClr => exact nomatch h
  | _ => rfl

theorem putOps_access {off : Nat} (fs : List GroupField) :
    ∀ i ∈ fs.map (GroupField.putOp off), accessOf i = some (off, 1) :=
  List.forall_mem_map.2 fun _ _ => rfl

theorem grpOps_access {off : Nat} (apply : Bool) (fs : List GroupField) :
    ∀ i ∈ grpOps off apply fs, accessOf i = some (off, 1) :=
  List.forall_mem_cons.2 ⟨rfl, List.forall_mem_append.2 ⟨putOps_access fs, List.forall_mem_singleton.2 rfl⟩⟩

/-- Settles O56: the byte is built by `grpOps_build`, and the marker lies above every field. -/
theorem grpEncEncodesTheGroup : Obligations.GrpEncEncodesTheGroup := by
  intro modes off apply fs s hoff hfs hdisj
  have hcheck : grpCheck modes fs = none := grpCheck_eq_none.2 ⟨hfs, hdisj⟩
  obtain ⟨hfits, hbelow, -⟩ := fieldsCheck_facts (by decide) hcheck
  obtain ⟨t, ht⟩ := grpOps_build hoff hcheck apply s
  refine ⟨_, t, grpEnc_eq_ok.2 ⟨hcheck, rfl⟩, ht.issueUntilErr, ht.byte, fun happly f hf => ?_, ht.frame,
    ht.crc fun i hi => crcOperation_of_access (grpOps_access apply fs i hi), ht.pending⟩
  rw [ht.byte, happly, encGroup_true, ← getBits_groupBits hfits hdisj hf]
  refine getBits_congr fun j hj => ?_
  have hmarker : ∀ n < 7, (0x80 : Byte).getLsbD n = false := by decide
  rw [BitVec.getLsbD_or, hmarker _ (by have := hbelow f hf; omega), Bool.false_or]

/-- Groups without their flag keep a frame of zeros. -/
theorem grpOps_false_keep_zeros {modes : InterruptCoding} {groups : List (Nat × List GroupField)}
    (hgroups : ∀ g ∈ groups, g.1 ≤ 63 ∧ grpCheck modes g.2 = none) {s : State} (hs : ∀ a, s.fb.read a = 0x00) :
    ∃ t, issueAll (groups.flatMap fun g => grpOps g.1 false g.2) s = .next t ∧ ∀ a, t.fb.read a = 0x00 := by
  induction groups generalizing s with
  | nil => exact ⟨s, rfl, hs⟩
  | cons g gs ih =>
    rw [List.forall_mem_cons] at hgroups
    obtain ⟨⟨hoff, hcheck⟩, hgs⟩ := hgroups
    obtain ⟨t, ht⟩ := grpOps_build hoff hcheck false s
    have hzero (a : Nat) : t.fb.read a = 0x00 := by
      by_cases ha : a = g.1
      · rw [ha, ht.byte, encGroup_false]
      · rw [ht.frame a ha, hs]
    obtain ⟨u, hu, hzero'⟩ := ih hgs hzero
    exact ⟨u, (issueAll_append ht.run _).trans hu, hzero'⟩

/-- Settles O57: FB.CLR makes the frame zero, and each group without its flag keeps it so. -/
theorem allClearFlagsGiveZeroPayload : Obligations.AllClearFlagsGiveZeroPayload := by
  intro modes groups s hgroups
  rw [issueAll_cons (exec_fbClr s)]
  exact grpOps_false_keep_zeros hgroups Memory.read_zeros

/-! #### What gets answer -/

/-- On any state with the frame buffer `m` the operation answers `ok(v)` and nothing else. -/
def Answers (m : Memory) (i : Instr) (v : Nat) : Prop :=
  ∀ s : State, s.fb = m → exec i s = .next (s.addOutcome (.ok (BitVec.ofNat 16 v)))

/-- Operations that answer, answer in order. -/
theorem issueAll_answers {m : Memory} {ops : List Instr} {vs : List Nat} (h : List.Forall₂ (Answers m) ops vs)
    {s : State} (hs : s.fb = m) :
    issueAll ops s = .next (s.addOutcomes (vs.map fun v => .ok (BitVec.ofNat 16 v))) := by
  induction h generalizing s with
  | nil => simp
  | cons hi _ ih =>
    rw [issueAll_cons (hi s hs), ih (s := s.addOutcome _) hs]
    simp

/-- `BF.GET` of a field answers what is in it. -/
theorem bfGet_answers {m : Memory} {off width shift v : Nat} (hoff : off ≤ 63)
    (h : getBits (m.read off) width shift = v) : Answers m (.bfGet off width shift) v := by
  rintro s rfl
  rw [exec_bfGet hoff, h]

/-! #### Pin triples -/

/-- The values of a pin triple lie in their ranges (R137). -/
structure PinTriple.InRange (p : PinTriple) : Prop where
  designation : p.designation ≤ 7
  direction : p.direction ≤ 1
  value : p.value ≤ 1

theorem PinTriple.outOfRange_eq_none {p : PinTriple} : p.outOfRange = none ↔ p.InRange := by
  unfold outOfRange
  constructor
  · intro h
    split at h
    · exact nomatch h
    · split at h
      · exact nomatch h
      · split at h
        · exact nomatch h
        · exact ⟨by omega, by omega, by omega⟩
  · rintro ⟨hdes, hdir, hval⟩
    rw [if_neg (by omega), if_neg (by omega), if_neg (by omega)]

/-- A pin triple as three fields of its byte (R137). The name of a record's field plays no part in `BF.PUT`. -/
def PinTriple.fields (p : PinTriple) : List GroupField :=
  [⟨.interruptFlag, 3, 0, p.designation⟩, ⟨.interruptFlag, 1, 3, p.direction⟩, ⟨.interruptFlag, 1, 4, p.value⟩]

theorem pinPutOps_eq (off : Nat) (p : PinTriple) : pinPutOps off p = p.fields.map (GroupField.putOp off) := rfl

theorem PinTriple.InRange.fits {p : PinTriple} (h : p.InRange) : ∀ f ∈ p.fields, f.Fits := by
  obtain ⟨hdes, hdir, hval⟩ := h
  simp only [fields, List.forall_mem_cons, List.not_mem_nil, false_imp_iff, implies_true, and_true]
  exact ⟨GroupField.fits_mk (by decide) (by omega), GroupField.fits_mk (by decide) (by omega),
    GroupField.fits_mk (by decide) (by omega)⟩

theorem PinTriple.fields_disjoint (p : PinTriple) : p.fields.Pairwise fun f g => f.disjoint g = true := by
  simp [fields, GroupField.disjoint]

/-- The byte of a pin triple is its three fields (R151). -/
theorem PinTriple.InRange.groupBits_fields {p : PinTriple} (h : p.InRange) : groupBits p.fields = p.byte := by
  obtain ⟨hdes, hdir, hval⟩ := h
  have hall : ∀ d < 8, ∀ r < 2, ∀ v < 2, groupBits (PinTriple.fields ⟨d, r, v⟩) = PinTriple.byte ⟨d, r, v⟩ := by decide
  exact hall _ (by omega) _ (by omega) _ (by omega)

/-- Bits 7:5 of the byte of a pin triple are 0 (R137). -/
theorem PinTriple.InRange.getLsbD_byte {p : PinTriple} (h : p.InRange) {n : Nat} (hn : 5 ≤ n) :
    p.byte.getLsbD n = false := by
  rw [← h.groupBits_fields]
  refine getLsbD_groupBits_outside h.fits fun f hf => .inr ?_
  have hbelow : ∀ f ∈ p.fields, f.shift + f.width ≤ 5 := by simp [fields]
  exact (hbelow f hf).trans hn

/-- `PIN.PUT` ORs the byte of the triple in (R151). -/
theorem pinPutOps_build {off : Nat} (hoff : off ≤ 63) {p : PinTriple} (hp : p.InRange) (s : State) :
    ∃ t, Builds (pinPutOps off p) off (s.fb.read off ||| p.byte) s t := by
  rw [pinPutOps_eq, ← hp.groupBits_fields]
  exact putOps_build hoff hp.fits s

/-- `PIN.GET` answers the triple whose bits are in bits 4:0 of the byte (R150). -/
theorem pinGet_answers {m : Memory} {off : Nat} (hoff : off ≤ 63) {p : PinTriple} (hp : p.InRange)
    (hbits : ∀ n < 5, (m.read off).getLsbD n = p.byte.getLsbD n) :
    List.Forall₂ (Answers m) (pinGet off) [p.designation, p.direction, p.value] := by
  have hfield : ∀ f ∈ p.fields, Answers m (.bfGet off f.width f.shift) f.value := by
    intro f hf
    have hbelow : ∀ f ∈ p.fields, f.shift + f.width ≤ 5 := by simp [PinTriple.fields]
    refine bfGet_answers hoff ?_
    rw [← getBits_groupBits hp.fits p.fields_disjoint hf, hp.groupBits_fields]
    exact getBits_congr fun j hj => hbits _ (by have := hbelow f hf; omega)
  have hall : List.Forall₂ (Answers m) (p.fields.map fun f => .bfGet off f.width f.shift) (p.fields.map (·.value)) := by
    rw [List.forall₂_map_left_iff, List.forall₂_map_right_iff]
    exact List.forall₂_same.2 hfield
  exact hall

/-- A byte divisible by 32 has its bits 4:0 clear. -/
theorem low_bits_clear : ∀ b : Byte, b.toNat % 32 = 0 → ∀ n < 5, b.getLsbD n = false := by decide

/-- Settles O55: PIN.PUT ORs the byte of the triple in, whose bits 4:0 are then alone there. -/
theorem pinTripleReadsBack : Obligations.PinTripleReadsBack := by
  intro off p s hoff hdes hdir hval hclear
  have hp : p.InRange := ⟨hdes, hdir, hval⟩
  obtain ⟨t, ht⟩ := pinPutOps_build hoff hp s
  have hbits : ∀ n < 5, (t.fb.read off).getLsbD n = p.byte.getLsbD n := by
    intro n hn
    rw [ht.byte, BitVec.getLsbD_or, low_bits_clear _ hclear n hn, Bool.false_or]
  exact ⟨_, t, _, pinPut_eq_ok.2 ⟨PinTriple.outOfRange_eq_none.2 hp, rfl⟩, ht.issueUntilErr, ht.byte,
    issueAll_answers (pinGet_answers hoff hp hbits) rfl, rfl⟩

end Sys2Proof.Machine

/-! ### What a layout allows (R152) -/

namespace Sys2Proof.Machine

theorem disjointBits_iff {ls : List (List (Nat × Nat))} : disjointBits ls = true ↔ ls.Pairwise List.Disjoint := by
  induction ls with
  | nil => simp [disjointBits]
  | cons l ls ih =>
    simp only [disjointBits, Bool.and_eq_true, ih, List.pairwise_cons, List.all_eq_true, Bool.not_eq_true',
      List.contains_eq_mem, decide_eq_false_iff_not, List.Disjoint]
    exact and_congr_left fun _ => forall₂_congr fun m _ => ⟨fun h x hl hm => h x hm hl, fun h x hm hl => h hl hm⟩

/-- The constraints on the layout of a frame kind, by name (R152). -/
structure FrameLayout.Sound (k : FrameKind) (l : FrameLayout) : Prop where
  shape : ∀ f ∈ k.fields, placeShape k f (l.place f) = true
  pinLow : k.firstOffset ≤ l.pinBase
  pinHigh : l.pinBase + 3 ≤ 63
  pinsApart : ∀ f ∈ k.fields, List.Disjoint (pinBits l.pinBase) (l.place f).bits
  fieldsApart : k.fields.Pairwise fun f g => List.Disjoint (l.place f).bits (l.place g).bits
  modes : l.modes.distinct = true

theorem FrameLayout.sound_of_allowed {k : FrameKind} {l : FrameLayout} (h : l.allowed k = true) : l.Sound k := by
  simp only [allowed, Bool.and_eq_true, List.all_eq_true, decide_eq_true_eq, disjointBits_iff, List.pairwise_cons,
    List.forall_mem_map, List.pairwise_map] at h
  obtain ⟨⟨⟨⟨hshape, hlow⟩, hhigh⟩, hpins, hfields⟩, hmodes⟩ := h
  exact ⟨hshape, hlow, hhigh, hpins, hfields, hmodes⟩

theorem FrameKind.firstOffset_pos (k : FrameKind) : 1 ≤ k.firstOffset := by
  cases k <;> decide

theorem placeShape_first {k : FrameKind} {f : ConfigField} {p : FieldPlace} (h : placeShape k f p = true) :
    1 ≤ p.off := by
  simp only [placeShape, Bool.and_eq_true, decide_eq_true_eq] at h
  exact k.firstOffset_pos.trans h.1

/-- The fields that are carried by `BF.PUT` and `BF.GET` (log entry 18). -/
def ConfigField.isBitField : ConfigField → Bool
  | .vid | .pid | .requestedCurrentMa => false
  | _ => true

theorem getOp_of_isBitField {f : ConfigField} (hf : f.isBitField = true) (p : FieldPlace) :
    getOp f p = .bfGet p.off p.width p.shift := by
  cases f with
  | vid | pid | requestedCurrentMa => exact nomatch hf
  | _ => rfl

theorem putOp_of_isBitField {f : ConfigField} (hf : f.isBitField = true) (p : FieldPlace) (v : Nat) :
    putOp f p v = .bfPut p.off p.width p.shift (BitVec.ofNat 8 v) := by
  cases f with
  | vid | pid | requestedCurrentMa => exact nomatch hf
  | _ => rfl

/-- A bit field lies in one byte of the frame. -/
theorem placeShape_bitField {k : FrameKind} {f : ConfigField} {p : FieldPlace} (hf : f.isBitField = true)
    (h : placeShape k f p = true) : p.off ≤ 63 ∧ p.width + p.shift ≤ 8 := by
  cases f with
  | vid | pid | requestedCurrentMa => exact nomatch hf
  | _ =>
    simp only [placeShape, Bool.and_eq_true, decide_eq_true_eq] at h
    exact h.2

/-- The bits of a bit field lie in its byte, from its shift on. -/
theorem mem_bits_of_bitField {p : FieldPlace} (hp : p.width + p.shift ≤ 8) {x : Nat × Nat} :
    x ∈ p.bits ↔ x.1 = p.off ∧ p.shift ≤ x.2 ∧ x.2 < p.shift + p.width := by
  obtain ⟨a, n⟩ := x
  simp only [FieldPlace.bits, List.mem_map, List.mem_range, Prod.mk.injEq]
  constructor
  · rintro ⟨j, hj, rfl, rfl⟩
    omega
  · rintro ⟨rfl, hlo, hhi⟩
    exact ⟨n - p.shift, by omega, by omega, by omega⟩

theorem mem_pinBits {base : Nat} {x : Nat × Nat} :
    x ∈ pinBits base ↔ base ≤ x.1 ∧ x.1 < base + 4 ∧ x.2 < 8 := by
  obtain ⟨a, n⟩ := x
  simp only [pinBits, List.mem_flatMap, List.mem_map, List.mem_range, Prod.mk.injEq]
  constructor
  · rintro ⟨k, hk, j, hj, rfl, rfl⟩
    omega
  · rintro ⟨hlo, hhi, hn⟩
    exact ⟨a - base, by omega, n, hn, by omega, rfl⟩

/-- No bit of a field lies before its offset. -/
theorem off_le_of_mem_bits {p : FieldPlace} {x : Nat × Nat} (h : x ∈ p.bits) : p.off ≤ x.1 := by
  simp only [FieldPlace.bits, List.mem_map] at h
  obtain ⟨j, -, rfl⟩ := h
  exact Nat.le_add_right _ _

/-- The fields of an SRAM write are bit fields. -/
theorem isBitField_of_sramWrite : ∀ f ∈ FrameKind.sramWrite.fields, f.isBitField = true := by decide

/-! ### A new frame (R47, R216) -/

/-- A new frame holds the opcode at offset 0 and 0x00 elsewhere. -/
theorem startFrame_completes (l : FrameLayout) (s : State) :
    ∃ t, Completes (startFrame l) s t ∧ t.fb.read 0 = l.opcode ∧ ∀ a, a ≠ 0 → t.fb.read a = 0x00 := by
  have hopcode := Builds.write (exec_fbWr (Nat.zero_le 63) l.opcode ((s.setFb Memory.zeros).addOutcome (.ok 0)))
  exact ⟨_, .cons (exec_fbClr s) rfl hopcode.toCompletes, hopcode.byte, hopcode.frame⟩

/-! ### Reading a record (R150, R152) -/

/-- A frame from which every field and every pin triple is read back gives the values of the record in order. -/
theorem readSettings_answers {k : FrameKind} {l : FrameLayout} {c : ChipSettings} {m : Memory}
    (hfields : ∀ f ∈ k.fields, Answers m (getOp f (l.place f)) (c.value l.modes f))
    (hpins : ∀ i (hi : i < 4), List.Forall₂ (Answers m) (pinGet (l.pinBase + i))
      [c.gpPins[i].designation, c.gpPins[i].direction, c.gpPins[i].value]) :
    List.Forall₂ (Answers m) (readSettings k l) (settingsValues k l c) := by
  have hpinList : List.Forall₂ (fun i (p : PinTriple) => List.Forall₂ (Answers m) (pinGet (l.pinBase + i))
      [p.designation, p.direction, p.value]) (List.range 4) c.gpPins.toList := by
    refine List.forall₂_iff_get.2 ⟨by simp, fun i hi _ => ?_⟩
    simpa using hpins i (by simpa using hi)
  refine List.rel_append ?_ ?_
  · rw [List.forall₂_map_left_iff, List.forall₂_map_right_iff]
    exact List.forall₂_same.2 hfields
  · exact List.rel_flatMap hpinList fun _ _ h => h

end Sys2Proof.Machine

/-! ### A record without markers (R154)

Each field of a record is put into bits of its own and read from them. `Carries` says so of a field, whichever
operations carry it, and fields in disjoint bits are carried together. -/

namespace Sys2Proof.Machine

/-- A bit of the frame buffer, by the offset of its byte and its number in it. -/
def bitAt (m : Memory) (x : Nat × Nat) : Bool := (m.read x.1).getLsbD x.2

/-- Where `bits` are zero, `puts` go through and change no other bit; and `gets` then answer `vs` from these bits,
whatever stands in the rest of the frame. -/
def Carries (puts gets : List Instr) (bits : List (Nat × Nat)) (vs : List Nat) : Prop :=
  ∀ s : State, (∀ x ∈ bits, bitAt s.fb x = false) →
    ∃ t, Completes puts s t ∧ (∀ x, x ∉ bits → bitAt t.fb x = bitAt s.fb x) ∧
      ∀ m, (∀ x ∈ bits, bitAt m x = bitAt t.fb x) → List.Forall₂ (Answers m) gets vs

theorem Carries.nil : Carries [] [] [] [] :=
  fun s _ => ⟨s, .nil s, fun _ _ => rfl, fun _ _ => .nil⟩

/-- What lies in disjoint bits is carried together. -/
theorem Carries.append {puts gets puts' gets' : List Instr} {bits bits' : List (Nat × Nat)} {vs vs' : List Nat}
    (h : Carries puts gets bits vs) (h' : Carries puts' gets' bits' vs') (hdisj : List.Disjoint bits bits') :
    Carries (puts ++ puts') (gets ++ gets') (bits ++ bits') (vs ++ vs') := by
  intro s hs
  rw [List.forall_mem_append] at hs
  obtain ⟨hzero, hzero'⟩ := hs
  obtain ⟨t, ht, hframe, hgets⟩ := h s hzero
  obtain ⟨u, hu, hframe', hgets'⟩ := h' t fun x hx => by rw [hframe x fun hx' => hdisj hx' hx, hzero' x hx]
  refine ⟨u, ht.append hu, fun x hx => ?_, fun m hm => ?_⟩
  · rw [List.mem_append, not_or] at hx
    rw [hframe' x hx.2, hframe x hx.1]
  · rw [List.forall_mem_append] at hm
    have hkept : ∀ x ∈ bits, bitAt m x = bitAt t.fb x := fun x hx => by rw [hm.1 x hx, hframe' x (hdisj hx)]
    exact List.rel_append (hgets m hkept) (hgets' m hm.2)

/-- Any number of things in disjoint bits is carried together. -/
theorem Carries.flatMap {α : Type} {puts gets : α → List Instr} {bits : α → List (Nat × Nat)} {vs : α → List Nat}
    {l : List α} (h : ∀ x ∈ l, Carries (puts x) (gets x) (bits x) (vs x))
    (hdisj : l.Pairwise fun x y => List.Disjoint (bits x) (bits y)) :
    Carries (l.flatMap puts) (l.flatMap gets) (l.flatMap bits) (l.flatMap vs) := by
  induction l with
  | nil => exact .nil
  | cons x xs ih =>
    rw [List.forall_mem_cons] at h
    rw [List.pairwise_cons] at hdisj
    refine h.1.append (ih h.2 hdisj.2) fun b hb hb' => ?_
    obtain ⟨y, hy, hby⟩ := List.mem_flatMap.1 hb'
    exact hdisj.1 y hy hb hby

/-! #### One byte -/

/-- Operations that build one byte, read back from some of its bits, carry what they put. -/
theorem carries_of_builds {puts gets : List Instr} {bits : List (Nat × Nat)} {vs : List Nat} {off : Nat}
    (hoff : ∀ x ∈ bits, x.1 = off)
    (h : ∀ s : State, (∀ x ∈ bits, bitAt s.fb x = false) →
      ∃ b t, Builds puts off b s t ∧ (∀ n, (off, n) ∉ bits → b.getLsbD n = (s.fb.read off).getLsbD n) ∧
        ∀ m : Memory, (∀ n, (off, n) ∈ bits → (m.read off).getLsbD n = b.getLsbD n) →
          List.Forall₂ (Answers m) gets vs) :
    Carries puts gets bits vs := by
  intro s hs
  obtain ⟨b, t, ht, hkeep, hgets⟩ := h s hs
  refine ⟨t, ht.toCompletes, fun ⟨a, n⟩ hx => ?_, fun m hm => hgets m fun n hn => ?_⟩
  · by_cases ha : a = off
    · subst ha
      simpa [bitAt, ht.byte] using hkeep n hx
    · simp [bitAt, ht.frame a ha]
  · simpa [bitAt, ht.byte] using hm (off, n) hn

theorem getLsbD_zero_byte (n : Nat) : (0 : Byte).getLsbD n = false := BitVec.getLsbD_zero

/-- A bit field is carried in its bits. -/
theorem bitField_carries {f : ConfigField} (hf : f.isBitField = true) {p : FieldPlace} {v : Nat} (hoff : p.off ≤ 63)
    (hfield : p.width + p.shift ≤ 8) (hv : v < 2 ^ p.width) : Carries [putOp f p v] [getOp f p] p.bits [v] := by
  have hfits : GroupField.Fits ⟨f, p.width, p.shift, v⟩ := ⟨hfield, hv⟩
  have hbyte : (BitVec.ofNat 8 v).toNat < 2 ^ p.width := hfits.toNat_value.symm ▸ hv
  rw [putOp_of_isBitField hf, getOp_of_isBitField hf]
  refine carries_of_builds (fun x hx => ((mem_bits_of_bitField hfield).1 hx).1) fun s hs =>
    ⟨_, _, .write (exec_bfPut hoff s hfield hbyte), fun n hn => ?_, fun m hm => ?_⟩
  · refine getLsbD_putBits_outside hbyte ?_
    have hout := mt (mem_bits_of_bitField hfield).2 hn
    simp only [true_and] at hout
    omega
  · refine .cons (bfGet_answers hoff ?_) .nil
    have hzero : getBits (s.fb.read p.off) p.width p.shift = 0 := by
      rw [show 0 = getBits 0 p.width p.shift by simp [getBits_eq]]
      refine getBits_congr fun j hj => ?_
      rw [getLsbD_zero_byte]
      exact hs (p.off, p.shift + j) ((mem_bits_of_bitField hfield).2 ⟨rfl, by omega, by omega⟩)
    have hval : (BitVec.ofNat 8 v).toNat = v := hfits.toNat_value
    rw [← hval, ← getBits_putBits_same hfield hbyte hzero]
    exact getBits_congr fun j hj => hm _ ((mem_bits_of_bitField hfield).2 ⟨rfl, by omega, by omega⟩)

/-- An even current up to 510 mA is carried in its whole byte (R135, R136). -/
theorem current_carries {p : FieldPlace} {v : Nat} (hoff : p.off ≤ 63) (hwidth : p.width = 8) (hshift : p.shift = 0)
    (hmax : v ≤ 510) (heven : v % 2 = 0) :
    Carries [putOp .requestedCurrentMa p v] [getOp .requestedCurrentMa p] p.bits [v] := by
  have hfield : p.width + p.shift ≤ 8 := by omega
  have htoNat : (BitVec.ofNat 16 v).toNat = v := by
    rw [BitVec.toNat_ofNat]
    omega
  have hput (s : State) := exec_curPut hoff s (mA := BitVec.ofNat 16 v) (by omega) (by omega)
  refine carries_of_builds (fun x hx => ((mem_bits_of_bitField hfield).1 hx).1) fun s _ =>
    ⟨_, _, .write (hput s), fun n hn => ?_, fun m hm => ?_⟩
  · have hout := mt (mem_bits_of_bitField hfield).2 hn
    simp only [true_and] at hout
    have hn : 8 ≤ n := by omega
    rw [BitVec.getLsbD_of_ge _ _ hn, BitVec.getLsbD_of_ge _ _ hn]
  · have hbyte : m.read p.off = curEnc (BitVec.ofNat 16 v) :=
      BitVec.eq_of_getLsbD_eq fun n hn => hm n ((mem_bits_of_bitField hfield).2 ⟨rfl, by omega, by omega⟩)
    refine .cons (fun s hs => ?_) .nil
    rw [show getOp .requestedCurrentMa p = .curGet p.off from rfl, exec_curGet hoff, hs, hbyte,
      curDec_curEnc (by omega) (by omega)]

/-- A pin triple is carried in its whole byte (R137). -/
theorem pin_carries {off : Nat} (hoff : off ≤ 63) {p : PinTriple} (hp : p.InRange) :
    Carries (pinPutOps off p) (pinGet off) ((List.range 8).map fun n => (off, n))
      [p.designation, p.direction, p.value] := by
  refine carries_of_builds (off := off) (by simp) fun s hs => ?_
  obtain ⟨t, ht⟩ := pinPutOps_build hoff hp s
  have hzero : s.fb.read off = 0 := by
    refine BitVec.eq_of_getLsbD_eq fun n hn => ?_
    rw [getLsbD_zero_byte]
    exact hs (off, n) (by simpa using hn)
  rw [hzero, show 0 ||| p.byte = p.byte from BitVec.zero_or] at ht
  refine ⟨_, t, ht, fun n hn => ?_, fun m hm => pinGet_answers hoff hp fun n hn => hm n (by simp; omega)⟩
  have hn : 8 ≤ n := by simpa using hn
  rw [BitVec.getLsbD_of_ge _ _ hn, BitVec.getLsbD_of_ge _ _ hn]

/-! #### A pair of bytes -/

/-- A 16-bit value is carried in its two bytes (R43). -/
theorem pair_carries {f : ConfigField} (hf : f = .vid ∨ f = .pid) {p : FieldPlace} {v : Nat} (hoff : p.off ≤ 62)
    (hwidth : p.width = 16) (hshift : p.shift = 0) :
    Carries [putOp f p v] [getOp f p] p.bits [v] := by
  have hput : putOp f p v = .le16Put p.off (BitVec.ofNat 16 v) := by rcases hf with rfl | rfl <;> rfl
  have hget : getOp f p = .le16Get p.off := by rcases hf with rfl | rfl <;> rfl
  have hbits : ∀ a n, (a, n) ∈ p.bits ↔ (a = p.off ∨ a = p.off + 1) ∧ n < 8 := by
    intro a n
    simp only [FieldPlace.bits, hwidth, hshift, List.mem_map, List.mem_range, Prod.mk.injEq]
    constructor
    · rintro ⟨j, hj, rfl, rfl⟩
      omega
    · rintro ⟨rfl | rfl, hn⟩
      · exact ⟨n, by omega, by omega, by omega⟩
      · exact ⟨8 + n, by omega, by omega, by omega⟩
  rw [hput, hget]
  intro s _
  refine ⟨_, .single (exec_le16Put hoff (BitVec.ofNat 16 v) s) rfl, fun ⟨a, n⟩ hx => ?_, fun m hm => ?_⟩
  · rw [hbits, not_and_or] at hx
    rcases hx with ha | hn
    · rw [not_or] at ha
      exact congrArg (BitVec.getLsbD · n) (read_writeSeq_le16enc_ne s.fb _ ha.1 ha.2)
    · exact (BitVec.getLsbD_of_ge _ _ (by omega)).trans (BitVec.getLsbD_of_ge _ _ (by omega)).symm
  · have hread {a : Nat} (ha : a = p.off ∨ a = p.off + 1) :
        m.read a = (s.fb.writeSeq p.off (le16enc (BitVec.ofNat 16 v))).read a :=
      BitVec.eq_of_getLsbD_eq fun n hn => hm (a, n) ((hbits a n).2 ⟨ha, hn⟩)
    refine .cons (fun u hu => ?_) .nil
    rw [exec_le16Get hoff, hu, hread (.inl rfl), hread (.inr rfl), read_writeSeq_le16enc_low,
      read_writeSeq_le16enc_high, le16dec_bytes]

/-! #### The whole record -/

/-- What the host's checks of a record ensure (R138). -/
theorem settingsCheck_facts {k : FrameKind} {l : FrameLayout} {c : ChipSettings} (h : settingsCheck k l c = none) :
    (∀ f ∈ k.fields, valueFitsPlace l c f = true) ∧ ∀ p ∈ c.gpPins.toList, p.InRange := by
  unfold settingsCheck at h
  split at h
  · exact nomatch h
  next hfields =>
    split at h
    · exact nomatch h
    next hpins =>
      exact ⟨by simpa [List.find?_eq_none] using hfields,
        fun p hp => PinTriple.outOfRange_eq_none.1 (List.findSome?_eq_none_iff.1 hpins p hp)⟩

/-- Every field that the checks accept is carried in its bits. -/
theorem field_carries {k : FrameKind} {l : FrameLayout} {c : ChipSettings} {f : ConfigField}
    (hshape : placeShape k f (l.place f) = true) (hvalue : valueFitsPlace l c f = true) :
    Carries [putOp f (l.place f) (c.value l.modes f)] [getOp f (l.place f)] (l.place f).bits [c.value l.modes f] := by
  cases f with
  | vid | pid =>
    simp only [placeShape, Bool.and_eq_true, decide_eq_true_eq] at hshape
    obtain ⟨-, ⟨hoff, hwidth⟩, hshift⟩ := hshape
    exact pair_carries (by simp) hoff hwidth hshift
  | requestedCurrentMa =>
    simp only [placeShape, Bool.and_eq_true, decide_eq_true_eq] at hshape
    simp only [valueFitsPlace, ConfigField.inRange, Bool.and_eq_true, decide_eq_true_eq] at hvalue
    obtain ⟨-, ⟨hoff, hwidth⟩, hshift⟩ := hshape
    exact current_carries hoff hwidth hshift hvalue.1.1 hvalue.1.2
  | _ =>
    simp only [valueFitsPlace, Bool.and_eq_true, decide_eq_true_eq] at hvalue
    obtain ⟨hoff, hfield⟩ := placeShape_bitField rfl hshape
    exact bitField_carries rfl hoff hfield hvalue.2

/-- What is done to each offset of an indexed list. -/
theorem zipIdx_flatMap_snd {α β : Type} (l : List α) (base : Nat) (g : Nat → List β) :
    (l.zipIdx base).flatMap (fun x => g x.2) = (List.range l.length).flatMap fun i => g (base + i) := by
  rw [← List.flatMap_map Prod.snd, List.zipIdx_map_snd, List.range'_eq_map_range, List.flatMap_map]

/-- What is done to each member of an indexed list. -/
theorem zipIdx_flatMap_fst {α β : Type} (l : List α) (base : Nat) (g : α → List β) :
    (l.zipIdx base).flatMap (fun x => g x.1) = l.flatMap g := by
  rw [← List.flatMap_map Prod.fst, List.zipIdx_map_fst]

/-- The four pin triples are carried in the four whole bytes. -/
theorem pinBlock_carries {base : Nat} (hbase : base + 3 ≤ 63) {pins : Vector PinTriple 4}
    (hpins : ∀ p ∈ pins.toList, p.InRange) :
    Carries (pinBlockOps base pins) ((List.range 4).flatMap fun i => pinGet (base + i)) (pinBits base)
      (pins.toList.flatMap fun p => [p.designation, p.direction, p.value]) := by
  have heach : ∀ x ∈ pins.toList.zipIdx base, Carries (pinPutOps x.2 x.1) (pinGet x.2)
      ((List.range 8).map fun n => (x.2, n)) [x.1.designation, x.1.direction, x.1.value] := by
    intro x hx
    have hlt : x.2 < base + 4 := by simpa using List.snd_lt_add_of_mem_zipIdx hx
    exact pin_carries (by omega) (hpins _ (List.fst_mem_of_mem_zipIdx hx))
  have hdistinct : (pins.toList.zipIdx base).Pairwise fun x y => x.2 ≠ y.2 := by
    rw [← List.pairwise_map, List.zipIdx_map_snd]
    exact List.nodup_range'
  have hblock := Carries.flatMap heach (hdistinct.imp fun hne b hb hb' => by
    simp only [List.mem_map] at hb hb'
    obtain ⟨_, -, rfl⟩ := hb
    obtain ⟨_, -, heq⟩ := hb'
    exact hne (congrArg Prod.fst heq).symm)
  rwa [zipIdx_flatMap_snd _ _ pinGet, zipIdx_flatMap_snd _ _ fun off => (List.range 8).map fun n => (off, n),
    zipIdx_flatMap_fst _ _ fun p : PinTriple => [p.designation, p.direction, p.value], Vector.length_toList] at hblock

/-- Settles O59: the fields and the pin block are carried in disjoint bits, all of them zero in a new frame. -/
theorem settingsRecordReadsBack : Obligations.SettingsRecordReadsBack := by
  intro k l c ops s hallowed hops
  have hl := FrameLayout.sound_of_allowed hallowed
  obtain ⟨hcheck, rfl⟩ := encodeRecord_eq_ok.1 hops
  obtain ⟨hfits, hpins⟩ := settingsCheck_facts hcheck
  refine ⟨?_, InterruptCoding.modeOf_code hl.modes c.interruptMode⟩
  have hfields := Carries.flatMap (l := k.fields) (fun f hf => field_carries (hl.shape f hf) (hfits f hf))
    hl.fieldsApart
  have hrecord := hfields.append (pinBlock_carries hl.pinHigh hpins) fun x hx hpin => by
    obtain ⟨f, hf, hxf⟩ := List.mem_flatMap.1 hx
    exact hl.pinsApart f hf hpin hxf
  rw [← List.map_eq_flatMap, ← List.map_eq_flatMap, ← List.map_eq_flatMap] at hrecord
  obtain ⟨t, ht, -, hzero⟩ := startFrame_completes l s
  have hbits : ∀ x ∈ k.fields.flatMap (fun f => (l.place f).bits) ++ pinBits l.pinBase, x.1 ≠ 0 := by
    intro x hx
    rcases List.mem_append.1 hx with hx | hx
    · obtain ⟨f, hf, hxf⟩ := List.mem_flatMap.1 hx
      exact Nat.ne_of_gt ((placeShape_first (hl.shape f hf)).trans (off_le_of_mem_bits hxf))
    · exact Nat.ne_of_gt ((k.firstOffset_pos.trans hl.pinLow).trans (mem_pinBits.1 hx).1)
  obtain ⟨u, hu, -, hgets⟩ := hrecord t fun x hx => by simp [bitAt, hzero x.1 (hbits x hx)]
  have hall := ht.append hu
  refine ⟨_, (issueAll_append hall.run _).trans (issueAll_answers (hgets u.fb fun _ _ => rfl) rfl), ?_⟩
  rw [State.addOutcomes_outcomes, hall.outcomes, List.append_assoc]
  rfl

end Sys2Proof.Machine

/-! ### A mark after the puts of its byte (R217) -/

namespace Sys2Proof.Machine

/-- The operations mark no byte. -/
def MarksNothing (ops : List Instr) : Prop := ∀ off apply, .bfMark off apply ∉ ops

theorem marksLast_cons {i : Instr} (h : ∀ off apply, i ≠ .bfMark off apply) (is : List Instr) :
    marksLast (i :: is) = marksLast is := by
  cases i with
  | bfMark off apply => exact absurd rfl (h off apply)
  | _ => rfl

/-- One list after another, none of whose puts is at a byte marked by the first. -/
theorem marksLast_append {ops ops' : List Instr} (h : marksLast ops = true) (h' : marksLast ops' = true)
    (hputs : ∀ off apply, .bfMark off apply ∈ ops → ∀ i ∈ ops', putsFieldAt off i = false) :
    marksLast (ops ++ ops') = true := by
  induction ops with
  | nil => exact h'
  | cons i is ih =>
    have hrest (h : marksLast is = true) : marksLast (is ++ ops') = true :=
      ih h fun off apply hm => hputs off apply (List.mem_cons_of_mem i hm)
    by_cases hi : ∃ off apply, i = .bfMark off apply
    · obtain ⟨off, apply, rfl⟩ := hi
      simp only [marksLast, Bool.and_eq_true, List.all_eq_true, Bool.not_eq_true'] at h
      simp only [List.cons_append, marksLast, Bool.and_eq_true, List.all_eq_true, Bool.not_eq_true',
        List.forall_mem_append]
      exact ⟨⟨h.1, hputs off apply (by simp)⟩, hrest h.2⟩
    · have hne : ∀ off apply, i ≠ .bfMark off apply := fun off apply he => hi ⟨off, apply, he⟩
      rw [List.cons_append, marksLast_cons hne]
      exact hrest (marksLast_cons hne is ▸ h)

theorem MarksNothing.marksLast {ops : List Instr} (h : MarksNothing ops) : marksLast ops = true := by
  induction ops with
  | nil => rfl
  | cons i is ih =>
    rw [marksLast_cons fun off apply he => h off apply (by simp [he])]
    exact ih fun off apply hm => h off apply (List.mem_cons_of_mem i hm)

/-- Whatever comes after operations that mark nothing. -/
theorem MarksNothing.marksLast_append {ops ops' : List Instr} (h : MarksNothing ops)
    (h' : Machine.marksLast ops' = true) : Machine.marksLast (ops ++ ops') = true :=
  Machine.marksLast_append h.marksLast h' fun off apply hm => absurd hm (h off apply)

theorem putOps_markNothing (off : Nat) (fs : List GroupField) : MarksNothing (fs.map (GroupField.putOp off)) := by
  intro off' apply hm
  obtain ⟨f, -, hf⟩ := List.mem_map.1 hm
  exact nomatch hf

theorem grpOps_marksLast (off : Nat) (apply : Bool) (fs : List GroupField) : marksLast (grpOps off apply fs) = true :=
  (putOps_markNothing off fs).marksLast_append rfl

theorem accessOf_of_putsFieldAt {off : Nat} {i : Instr} (h : putsFieldAt off i = true) :
    accessOf i = some (off, 1) := by
  cases i with
  | bfPut o width shift value =>
    obtain rfl : o = off := of_decide_eq_true h
    rfl
  | _ => exact nomatch h

end Sys2Proof.Machine

/-! ### The bytes of an SRAM write (R139, R152, R156) -/

namespace Sys2Proof.Machine

theorem byteUpdate_access {l : Layout} {u : SramUpdate} {off : Nat} {ops : List Instr}
    (h : byteUpdate l u off = .ok ops) : ∀ i ∈ ops, accessOf i = some (off, 1) := by
  cases hpin : pinAt l u off with
  | some p =>
    obtain ⟨-, -, rfl⟩ := (byteUpdate_eq_ok_of_pin hpin).1 h
    refine List.forall_mem_append.2 ⟨putOps_access p.fields, List.forall_mem_append.2 ⟨putOps_access _, ?_⟩⟩
    split
    · exact List.forall_mem_singleton.2 rfl
    · exact List.forall_mem_nil _
  | none =>
    obtain ⟨-, -, rfl⟩ | ⟨-, -, rfl⟩ | ⟨-, -, -, rfl⟩ := (byteUpdate_eq_ok hpin).1 h
    · exact grpOps_access _ _
    · exact grpOps_access _ _
    · exact putOps_access _

theorem byteUpdate_marksLast {l : Layout} {u : SramUpdate} {off : Nat} {ops : List Instr}
    (h : byteUpdate l u off = .ok ops) : marksLast ops = true := by
  cases hpin : pinAt l u off with
  | some p =>
    obtain ⟨-, -, rfl⟩ := (byteUpdate_eq_ok_of_pin hpin).1 h
    refine (putOps_markNothing off p.fields).marksLast_append ((putOps_markNothing off _).marksLast_append ?_)
    split <;> rfl
  | none =>
    obtain ⟨-, -, rfl⟩ | ⟨-, -, rfl⟩ | ⟨-, -, -, rfl⟩ := (byteUpdate_eq_ok hpin).1 h
    · exact grpOps_marksLast off true _
    · exact grpOps_marksLast off false _
    · exact (putOps_markNothing off _).marksLast

/-- The fields of a byte of an accepted update fit, and share no bit. -/
theorem byteUpdate_fields {l : Layout} {u : SramUpdate} {off : Nat} {ops : List Instr}
    (h : byteUpdate l u off = .ok ops) :
    (∀ f ∈ byteFields l u off, f.Fits) ∧ (byteFields l u off).Pairwise fun f g => f.disjoint g = true := by
  have hof {bits : Nat} (hbits : bits ≤ 8) (hcheck : fieldsCheck bits l.sramWrite.modes (byteFields l u off) = none) :=
    fieldsCheck_facts hbits hcheck
  cases hpin : pinAt l u off with
  | some p =>
    obtain ⟨-, hcheck, -⟩ := (byteUpdate_eq_ok_of_pin hpin).1 h
    exact ⟨(hof (by decide) hcheck).1, (hof (by decide) hcheck).2.2⟩
  | none =>
    obtain ⟨-, hcheck, -⟩ | ⟨-, hnil, -⟩ | ⟨-, -, hcheck, -⟩ := (byteUpdate_eq_ok hpin).1 h
    · exact ⟨(hof (by decide) hcheck).1, (hof (by decide) hcheck).2.2⟩
    · simp [hnil]
    · exact ⟨(hof (by decide) hcheck).1, (hof (by decide) hcheck).2.2⟩

/-! #### Where an update puts something -/

/-- A field of a byte is a field of an SRAM write, at its place of the layout (R152). -/
theorem place_of_mem_byteFields {l : Layout} {u : SramUpdate} {off : Nat} {f : GroupField}
    (h : f ∈ byteFields l u off) :
    f.field ∈ FrameKind.sramWrite.fields ∧ l.sramWrite.place f.field = ⟨off, f.width, f.shift⟩ := by
  obtain ⟨g, hg, hvalue, hplace⟩ := mem_byteFields.1 h
  cases hreq : u.requests g with
  | false => simp [SramUpdate.values_of_unchanged hreq] at hvalue
  | true =>
    have hfield : f.field ∈ g.fields := by
      rw [← SramUpdate.values_fields (modes := l.sramWrite.modes) hreq]
      exact List.mem_map_of_mem hvalue
    exact ⟨List.mem_flatMap.2 ⟨g, hg, hfield⟩, hplace⟩

/-- A pin triple is put at its own offset of the four (R139). -/
theorem pinAt_eq_some {l : Layout} {u : SramUpdate} {off : Nat} {p : PinTriple} :
    pinAt l u off = some p ↔
      ∃ pins : Vector PinTriple 4, u.gpPins = .setTo pins ∧
        ∃ i, ∃ hi : i < 4, off = l.sramWrite.pinBase + i ∧ pins[i] = p := by
  unfold pinAt
  cases hu : u.gpPins with
  | unchanged => simp
  | setTo pins =>
    simp only [Option.ite_none_right_eq_some, Update.setTo.injEq, exists_eq_left']
    constructor
    · rintro ⟨hle, hget⟩
      obtain ⟨hi, rfl⟩ := List.getElem?_eq_some_iff.1 hget
      exact ⟨off - l.sramWrite.pinBase, by simpa using hi, by omega, by simp⟩
    · rintro ⟨i, hi, rfl, rfl⟩
      exact ⟨Nat.le_add_right _ _, by simp [hi]⟩

/-- The constraints on the layouts of an SRAM write and on its markers (R152). -/
structure Layout.Sound (l : Layout) : Prop where
  fields : l.sramWrite.Sound .sramWrite
  markers : ∀ off ∈ l.markerOffsets, 1 ≤ off ∧ off ≤ 63 ∧
    ∀ f ∈ FrameKind.sramWrite.fields, (off, 7) ∉ (l.sramWrite.place f).bits

theorem Layout.sound_of_allowed {l : Layout} (h : l.allowed = true) : l.Sound := by
  simp only [allowed, markerAllowed, Bool.and_eq_true, List.all_eq_true, decide_eq_true_eq, Bool.not_eq_true',
    List.contains_eq_mem, decide_eq_false_iff_not] at h
  obtain ⟨⟨⟨⟨-, -⟩, hsram⟩, -⟩, hmarkers⟩ := h
  exact ⟨FrameLayout.sound_of_allowed hsram, fun off hoff => and_assoc.1 (hmarkers off hoff)⟩

theorem Layout.mem_pinBytes {l : Layout} {off : Nat} :
    off ∈ l.pinBytes ↔ ∃ i < 4, off = l.sramWrite.pinBase + i := by
  simp [pinBytes, eq_comm]

theorem Layout.mem_groupBytes {l : Layout} {off : Nat} :
    off ∈ l.groupBytes ↔
      (∃ f ∈ FrameKind.sramWrite.fields, (l.sramWrite.place f).off = off) ∨ off ∈ l.pinBytes ∨
        off ∈ l.markerOffsets := by
  simp [groupBytes]

theorem mem_markerOffsets_of_marksByte {l : Layout} {u : SramUpdate} {off : Nat} (h : marksByte l u off = true) :
    off ∈ l.markerOffsets := by
  obtain ⟨g, hg, -, hoff⟩ := marksByte_eq_true.1 h
  exact List.mem_flatMap.2 ⟨g, hg, hoff⟩

section
variable {l : Layout} (hl : l.Sound)
include hl

/-- The places of an SRAM write lie in one byte each, after the opcode. -/
theorem Layout.Sound.place {f : ConfigField} (hf : f ∈ FrameKind.sramWrite.fields) :
    1 ≤ (l.sramWrite.place f).off ∧ (l.sramWrite.place f).off ≤ 63 ∧
      (l.sramWrite.place f).width + (l.sramWrite.place f).shift ≤ 8 :=
  ⟨placeShape_first (hl.fields.shape f hf),
    placeShape_bitField (isBitField_of_sramWrite f hf) (hl.fields.shape f hf)⟩

/-- The bytes of an SRAM write lie in the frame, after the opcode. -/
theorem Layout.Sound.groupBytes {off : Nat} (hoff : off ∈ l.groupBytes) : 1 ≤ off ∧ off ≤ 63 := by
  rcases Layout.mem_groupBytes.1 hoff with ⟨f, hf, rfl⟩ | hpin | hmarker
  · exact ⟨(hl.place hf).1, (hl.place hf).2.1⟩
  · obtain ⟨i, hi, rfl⟩ := Layout.mem_pinBytes.1 hpin
    have hlow : 1 ≤ l.sramWrite.pinBase := hl.fields.pinLow
    have hhigh := hl.fields.pinHigh
    omega
  · exact ⟨(hl.markers off hmarker).1, (hl.markers off hmarker).2.1⟩

/-- A field in a pin byte has no bits (R137). -/
theorem Layout.Sound.width_eq_zero {off : Nat} (hoff : off ∈ l.pinBytes) {f : ConfigField}
    (hf : f ∈ FrameKind.sramWrite.fields) (hplace : (l.sramWrite.place f).off = off) :
    (l.sramWrite.place f).width = 0 := by
  obtain ⟨i, hi, rfl⟩ := Layout.mem_pinBytes.1 hoff
  obtain ⟨-, -, hfield⟩ := hl.place hf
  by_contra hne
  have hbit : (l.sramWrite.pinBase + i, (l.sramWrite.place f).shift) ∈ (l.sramWrite.place f).bits :=
    (mem_bits_of_bitField hfield).2 ⟨hplace.symm, by omega, by omega⟩
  exact hl.fields.pinsApart f hf (mem_pinBits.2 ⟨by omega, by omega, by omega⟩) hbit

/-- The fields in a pin byte leave it to the pin triple. -/
theorem Layout.Sound.groupBits_eq_zero {u : SramUpdate} {off : Nat} (hoff : off ∈ l.pinBytes)
    (hfits : ∀ f ∈ byteFields l u off, f.Fits) : groupBits (byteFields l u off) = 0 := by
  refine BitVec.eq_of_getLsbD_eq fun n _ => ?_
  rw [getLsbD_zero_byte]
  refine getLsbD_groupBits_outside hfits fun f hf => ?_
  obtain ⟨hfield, hplace⟩ := place_of_mem_byteFields hf
  have hwidth := hl.width_eq_zero hoff hfield (by rw [hplace])
  rw [hplace] at hwidth
  have hwidth : f.width = 0 := hwidth
  omega

end

end Sys2Proof.Machine

/-! ### A whole SRAM write (R139, R156, R217) -/

namespace Sys2Proof.Machine

theorem sramByte_of_ne {l : Layout} {u : SramUpdate} {off : Nat} (h : off ≠ 0) :
    sramByte l u off = encGroup (marksByte l u off) 0x00 ||| groupBits (byteFields l u off) |||
      ((pinAt l u off).map PinTriple.byte).getD 0x00 :=
  if_neg h

/-- Where nothing is placed the frame holds 0x00. -/
theorem sramByte_of_not_mem {l : Layout} {u : SramUpdate} {off : Nat} (h0 : off ≠ 0) (h : off ∉ l.groupBytes) :
    sramByte l u off = 0 := by
  rw [Layout.mem_groupBytes, not_or, not_or] at h
  obtain ⟨hfield, hpin, hmarker⟩ := h
  have hmarks : marksByte l u off = false := by
    rw [Bool.eq_false_iff]
    exact fun hm => hmarker (mem_markerOffsets_of_marksByte hm)
  have hfields : byteFields l u off = [] := by
    rw [List.eq_nil_iff_forall_not_mem]
    intro f hf
    obtain ⟨hf, hplace⟩ := place_of_mem_byteFields hf
    exact hfield ⟨f.field, hf, by rw [hplace]⟩
  have hnone : pinAt l u off = none := by
    rw [Option.eq_none_iff_forall_ne_some]
    intro p hp
    obtain ⟨pins, -, i, hi, hoff, -⟩ := pinAt_eq_some.1 hp
    exact hpin (Layout.mem_pinBytes.2 ⟨i, hi, hoff⟩)
  rw [sramByte_of_ne h0, hmarks, hfields, hnone]
  rfl

/-- An update builds each of its bytes from 0x00 into what `sramByte` says. -/
theorem byteUpdate_builds {l : Layout} (hl : l.Sound) {u : SramUpdate} {off : Nat} (hoff : 1 ≤ off ∧ off ≤ 63)
    {ops : List Instr} (hops : byteUpdate l u off = .ok ops) {s : State} (hs : s.fb.read off = 0) :
    ∃ t, Builds ops off (sramByte l u off) s t := by
  obtain ⟨hfits, -⟩ := byteUpdate_fields hops
  have hzero : ∀ b : Byte, 0x00 ||| b = b := fun _ => BitVec.zero_or
  rw [sramByte_of_ne (by omega)]
  cases hpin : pinAt l u off with
  | some p =>
    obtain ⟨hrange, -, rfl⟩ := (byteUpdate_eq_ok_of_pin hpin).1 hops
    have hp : p.InRange := PinTriple.outOfRange_eq_none.1 hrange
    have hgroup : groupBits (byteFields l u off) = 0 := by
      obtain ⟨pins, -, i, hi, hoff, -⟩ := pinAt_eq_some.1 hpin
      exact hl.groupBits_eq_zero (Layout.mem_pinBytes.2 ⟨i, hi, hoff⟩) hfits
    obtain ⟨t, ht⟩ := pinPutOps_build hoff.2 hp s
    rw [hs, hzero] at ht
    obtain ⟨v, hv⟩ := putOps_build hoff.2 hfits t
    rw [ht.byte, hgroup, show p.byte ||| 0 = p.byte from BitVec.or_zero] at hv
    cases hmarks : marksByte l u off with
    | false => exact ⟨v, by simpa [hgroup] using ht.append hv⟩
    | true =>
      have hclear : markerSet p.byte = false := hp.getLsbD_byte (by decide)
      have hmark := Builds.write (exec_bfMark hoff.2 v (apply := true) (by simp [hv.byte, hclear]))
      rw [hv.byte] at hmark
      exact ⟨_, by simpa [hgroup] using ht.append (hv.append hmark)⟩
  | none =>
    obtain ⟨hmarks, hcheck, rfl⟩ | ⟨hmarks, hnil, rfl⟩ | ⟨hmarks, -, -, rfl⟩ := (byteUpdate_eq_ok hpin).1 hops
    · obtain ⟨t, ht⟩ := grpOps_build hoff.2 hcheck true s
      exact ⟨t, by simpa [hmarks] using ht⟩
    · obtain ⟨t, ht⟩ := grpOps_build hoff.2 (modes := l.sramWrite.modes) (fs := []) rfl false s
      exact ⟨t, by simpa [hmarks, hnil] using ht⟩
    · obtain ⟨t, ht⟩ := putOps_build hoff.2 hfits s
      exact ⟨t, by simpa [hmarks, hs] using ht⟩

/-- The expansions of distinct bytes build them all, and leave the other bytes. -/
theorem byteUpdates_complete {l : Layout} (hl : l.Sound) {u : SramUpdate} {offs : List Nat}
    {parts : List (List Instr)} (hparts : List.Forall₂ (fun off ops => byteUpdate l u off = .ok ops) offs parts)
    (hoffs : ∀ off ∈ offs, off ∈ l.groupBytes) (hnodup : offs.Nodup) {s : State}
    (hs : ∀ off ∈ offs, s.fb.read off = 0) :
    ∃ t, Completes parts.flatten s t ∧ (∀ off ∈ offs, t.fb.read off = sramByte l u off) ∧
      ∀ a, a ∉ offs → t.fb.read a = s.fb.read a := by
  induction hparts generalizing s with
  | nil => exact ⟨s, .nil s, by simp, fun _ _ => rfl⟩
  | @cons off ops offs parts hops _ ih =>
    rw [List.forall_mem_cons] at hoffs hs
    obtain ⟨hout, hnodup⟩ := List.nodup_cons.1 hnodup
    obtain ⟨t, ht⟩ := byteUpdate_builds hl (hl.groupBytes hoffs.1) hops hs.1
    have hne {a : Nat} (ha : a ∈ offs) : a ≠ off := fun h => hout (h ▸ ha)
    obtain ⟨v, hv, hbytes, hframe⟩ := ih hoffs.2 hnodup (s := t) fun a ha => by rw [ht.frame a (hne ha), hs.2 a ha]
    refine ⟨v, ht.toCompletes.append hv, ?_, fun a ha => ?_⟩
    · exact List.forall_mem_cons.2 ⟨(hframe off hout).trans ht.byte, hbytes⟩
    · rw [List.mem_cons, not_or] at ha
      rw [hframe a ha.2, ht.frame a ha.1]

/-- The expansions of an SRAM write, byte by byte. -/
theorem sramWrite_parts {l : Layout} {u : SramUpdate} {ops : List Instr} (h : sramWrite l u = .ok ops) :
    ∃ parts, List.Forall₂ (fun off ops => byteUpdate l u off = .ok ops) l.groupBytes parts ∧
      ops = startFrame l.sramWrite ++ parts.flatten := by
  obtain ⟨parts, hparts, rfl⟩ := sramWrite_eq_ok.1 h
  refine ⟨parts, ?_, rfl⟩
  rw [← List.forall₂_eq_eq_eq] at hparts
  exact List.forall₂_map_right_iff.1 (List.forall₂_map_left_iff.1 hparts)

/-- An accepted SRAM write goes through and leaves `sramByte` at every offset. -/
theorem sramWrite_completes {l : Layout} (hl : l.Sound) {u : SramUpdate} {ops : List Instr}
    (hops : sramWrite l u = .ok ops) (s : State) :
    ∃ t, Completes ops s t ∧ ∀ a, t.fb.read a = sramByte l u a := by
  obtain ⟨parts, hparts, rfl⟩ := sramWrite_parts hops
  obtain ⟨t, ht, hopcode, hzero⟩ := startFrame_completes l.sramWrite s
  have hne {off : Nat} (hoff : off ∈ l.groupBytes) : off ≠ 0 := Nat.ne_of_gt (hl.groupBytes hoff).1
  obtain ⟨v, hv, hbytes, hframe⟩ := byteUpdates_complete hl hparts (fun _ h => h) l.groupBytes_nodup
    fun off hoff => hzero off (hne hoff)
  refine ⟨v, ht.append hv, fun a => ?_⟩
  by_cases ha : a ∈ l.groupBytes
  · exact hbytes a ha
  · rw [hframe a ha]
    by_cases h0 : a = 0
    · rw [h0, hopcode]
      rfl
    · rw [hzero a h0, sramByte_of_not_mem h0 ha]

/-- The expansions of distinct bytes: each operation works on one of the bytes, and each marks after its puts. -/
theorem byteUpdates_marksLast {l : Layout} {u : SramUpdate} {offs : List Nat} {parts : List (List Instr)}
    (hparts : List.Forall₂ (fun off ops => byteUpdate l u off = .ok ops) offs parts) (hnodup : offs.Nodup) :
    (∀ i ∈ parts.flatten, ∃ off ∈ offs, accessOf i = some (off, 1)) ∧ marksLast parts.flatten = true := by
  induction hparts with
  | nil => exact ⟨by simp, rfl⟩
  | @cons off ops offs parts hops _ ih =>
    obtain ⟨hout, hnodup⟩ := List.nodup_cons.1 hnodup
    obtain ⟨haccess, hmarks⟩ := ih hnodup
    have hfirst := byteUpdate_access hops
    refine ⟨List.forall_mem_append.2 ⟨fun i hi => ⟨off, by simp, hfirst i hi⟩, fun i hi => ?_⟩,
      marksLast_append (byteUpdate_marksLast hops) hmarks fun o apply hmark i hi => ?_⟩
    · obtain ⟨o, ho, hacc⟩ := haccess i hi
      exact ⟨o, by simp [ho], hacc⟩
    · obtain rfl : o = off := by simpa [accessOf] using hfirst _ hmark
      rw [Bool.eq_false_iff]
      intro hput
      obtain ⟨o', ho', hacc⟩ := haccess i hi
      obtain rfl : o' = o := by simpa [accessOf_of_putsFieldAt hput, eq_comm] using hacc
      exact hout ho'

/-- Settles O58: a new frame, then each byte built once and marked last. -/
theorem sramWriteMarksRequestedGroupsOnly : Obligations.SramWriteMarksRequestedGroupsOnly := by
  intro l u ops s hallowed hops
  have hl := Layout.sound_of_allowed hallowed
  obtain ⟨t, ht, hbytes⟩ := sramWrite_completes hl hops s
  obtain ⟨parts, hparts, rfl⟩ := sramWrite_parts hops
  obtain ⟨haccess, hmarks⟩ := byteUpdates_marksLast hparts l.groupBytes_nodup
  have hstart : MarksNothing (startFrame l.sramWrite) := by simp [MarksNothing, startFrame]
  have hcodec : ∀ i ∈ startFrame l.sramWrite ++ parts.flatten, crcOperation i = false := by
    refine List.forall_mem_append.2 ⟨by simp [startFrame, crcOperation], fun i hi => ?_⟩
    obtain ⟨off, -, hacc⟩ := haccess i hi
    exact crcOperation_of_access hacc
  exact ⟨hstart.marksLast_append hmarks, t, ht.issueUntilErr, hbytes, ht.crc hcodec, ht.pending⟩

/-! ### Reading an applied record back (R154) -/

/-- The update of a record requests every group. -/
theorem SramUpdate.requests_ofRecord (c : ChipSettings) (g : FieldGroup) :
    (SramUpdate.ofRecord c).requests g = true := by
  cases g <;> rfl

/-- The update of a record marks every marker byte. -/
theorem marksByte_ofRecord {l : Layout} {c : ChipSettings} {off : Nat} (h : off ∈ l.markerOffsets) :
    marksByte l (SramUpdate.ofRecord c) off = true := by
  obtain ⟨g, hg, hoff⟩ := List.mem_flatMap.1 h
  exact marksByte_eq_true.2 ⟨g, hg, SramUpdate.requests_ofRecord c g, hoff⟩

/-- The update of a record puts every field of an SRAM write, at its place. -/
theorem mem_byteFields_ofRecord {l : Layout} {c : ChipSettings} {f : ConfigField}
    (hf : f ∈ FrameKind.sramWrite.fields) :
    ⟨f, (l.sramWrite.place f).width, (l.sramWrite.place f).shift, c.value l.sramWrite.modes f⟩ ∈
      byteFields l (SramUpdate.ofRecord c) (l.sramWrite.place f).off := by
  obtain ⟨g, hg, hfg⟩ := List.mem_flatMap.1 hf
  refine mem_byteFields.2 ⟨g, hg, ?_, rfl⟩
  rw [SramUpdate.values_ofRecord]
  exact List.mem_map_of_mem hfg

/-- Each byte of an accepted SRAM write has an accepted expansion. -/
theorem sramWrite_byteUpdate {l : Layout} {u : SramUpdate} {ops : List Instr} (h : sramWrite l u = .ok ops) {off : Nat}
    (hoff : off ∈ l.groupBytes) : ∃ ops', byteUpdate l u off = .ok ops' := by
  obtain ⟨parts, hparts, -⟩ := sramWrite_eq_ok.1 h
  have hmem : byteUpdate l u off ∈ parts.map .ok := hparts ▸ List.mem_map_of_mem hoff
  obtain ⟨ops', -, hops'⟩ := List.mem_map.1 hmem
  exact ⟨ops', hops'.symm⟩

/-- Below bit 7 a mark changes nothing. -/
theorem getLsbD_encGroup_zero {apply : Bool} {n : Nat} (h : n < 7 ∨ apply = false) :
    (encGroup apply 0x00).getLsbD n = false := by
  cases apply with
  | false => exact getLsbD_zero_byte n
  | true =>
    have hall : ∀ n < 7, (encGroup true 0x00).getLsbD n = false := by decide
    exact hall n (h.resolve_right nofun)

section
variable {l : Layout} (hl : l.Sound) {c : ChipSettings} {m : Memory}
  (hm : ∀ a, m.read a = sramByte l (SramUpdate.ofRecord c) a)
include hl hm

/-- Every marker reads 1. -/
theorem marker_answers {off : Nat} (hoff : off ∈ l.markerOffsets) : Answers m (.bfGet off 1 7) 1 := by
  obtain ⟨hlow, hhigh, -⟩ := hl.markers off hoff
  have hmark : getBits 0x80 1 7 = 1 := by decide
  refine bfGet_answers hhigh (.trans (getBits_congr fun j hj => ?_) hmark)
  obtain rfl : j = 0 := by omega
  rw [hm, sramByte_of_ne (by omega), marksByte_ofRecord hoff]
  simp

/-- Every field of an accepted record reads back. -/
theorem field_answers {f : ConfigField} (hf : f ∈ FrameKind.sramWrite.fields) {ops : List Instr}
    (hops : byteUpdate l (SramUpdate.ofRecord c) (l.sramWrite.place f).off = .ok ops) :
    Answers m (getOp f (l.sramWrite.place f)) (c.value l.sramWrite.modes f) := by
  obtain ⟨hlow, hhigh, hfield⟩ := hl.place hf
  obtain ⟨hfits, hdisj⟩ := byteUpdate_fields hops
  have hvalue := getBits_groupBits hfits hdisj (mem_byteFields_ofRecord hf)
  rw [getOp_of_isBitField (isBitField_of_sramWrite f hf)]
  refine bfGet_answers hhigh (.trans (getBits_congr fun j hj => ?_) hvalue)
  have hmark : (l.sramWrite.place f).shift + j < 7 ∨
      marksByte l (SramUpdate.ofRecord c) (l.sramWrite.place f).off = false := by
    by_contra! hnot
    obtain ⟨h7, hmarks⟩ := hnot
    obtain ⟨-, -, hfree⟩ := hl.markers _ (mem_markerOffsets_of_marksByte (Bool.eq_true_of_not_eq_false hmarks))
    exact hfree f hf ((mem_bits_of_bitField hfield).2 ⟨rfl, by omega, by omega⟩)
  have hpin : pinAt l (SramUpdate.ofRecord c) (l.sramWrite.place f).off = none := by
    rw [Option.eq_none_iff_forall_ne_some]
    intro p hp
    obtain ⟨pins, -, i, hi, hoff, -⟩ := pinAt_eq_some.1 hp
    have hwidth := hl.width_eq_zero (Layout.mem_pinBytes.2 ⟨i, hi, hoff⟩) hf rfl
    omega
  rw [hm, sramByte_of_ne (by omega), BitVec.getLsbD_or, BitVec.getLsbD_or, getLsbD_encGroup_zero hmark, hpin]
  simp

/-- Every pin triple of an accepted record reads back. -/
theorem pin_answers {i : Nat} (hi : i < 4) {ops : List Instr}
    (hops : byteUpdate l (SramUpdate.ofRecord c) (l.sramWrite.pinBase + i) = .ok ops) :
    List.Forall₂ (Answers m) (pinGet (l.sramWrite.pinBase + i))
      [c.gpPins[i].designation, c.gpPins[i].direction, c.gpPins[i].value] := by
  have hlow : 1 ≤ l.sramWrite.pinBase := hl.fields.pinLow
  have hhigh := hl.fields.pinHigh
  obtain ⟨hfits, -⟩ := byteUpdate_fields hops
  have hpin : pinAt l (SramUpdate.ofRecord c) (l.sramWrite.pinBase + i) = some c.gpPins[i] :=
    pinAt_eq_some.2 ⟨c.gpPins, rfl, i, hi, rfl, rfl⟩
  obtain ⟨hrange, -, -⟩ := (byteUpdate_eq_ok_of_pin hpin).1 hops
  refine pinGet_answers (by omega) (PinTriple.outOfRange_eq_none.1 hrange) fun n hn => ?_
  have hgroup := hl.groupBits_eq_zero (Layout.mem_pinBytes.2 ⟨i, hi, rfl⟩) hfits
  rw [hm, sramByte_of_ne (by omega), hpin, hgroup, BitVec.getLsbD_or, BitVec.getLsbD_or,
    getLsbD_encGroup_zero (.inl (by omega)), getLsbD_zero_byte]
  rfl

end

/-- Settles O60: the frame holds `sramByte` at every offset, from which every marker, field and pin triple is read. -/
theorem appliedRecordReadsBack : Obligations.AppliedRecordReadsBack := by
  intro l c ops s hallowed hops
  have hl := Layout.sound_of_allowed hallowed
  obtain ⟨t, ht, hbytes⟩ := sramWrite_completes hl hops s
  have hmarkers : List.Forall₂ (Answers t.fb) (l.markerOffsets.map fun o => .bfGet o 1 7)
      (List.replicate l.markerOffsets.length 1) := by
    rw [← List.map_const', List.forall₂_map_left_iff, List.forall₂_map_right_iff]
    exact List.forall₂_same.2 fun off hoff => marker_answers hl hbytes hoff
  have hrecord : List.Forall₂ (Answers t.fb) (readSettings .sramWrite l.sramWrite)
      (settingsValues .sramWrite l.sramWrite c) := by
    refine readSettings_answers (fun f hf => ?_) fun i hi => ?_
    · obtain ⟨_, hbyte⟩ := sramWrite_byteUpdate hops (Layout.mem_groupBytes.2 (.inl ⟨f, hf, rfl⟩))
      exact field_answers hl hbytes hf hbyte
    · have hoff : l.sramWrite.pinBase + i ∈ l.pinBytes := Layout.mem_pinBytes.2 ⟨i, hi, rfl⟩
      obtain ⟨_, hbyte⟩ := sramWrite_byteUpdate hops (Layout.mem_groupBytes.2 (.inr (.inl hoff)))
      exact pin_answers hl hbytes hi hbyte
  refine ⟨_, (issueAll_append ht.run _).trans (issueAll_answers (List.rel_append hmarkers hrecord) rfl), ?_⟩
  rw [State.addOutcomes_outcomes, ht.outcomes, List.append_assoc, List.map_append, List.map_replicate]
  rfl

end Sys2Proof.Machine
